-- ==== Sys2Proof/Word.lean ====
section
/-! DEFINITION. The word types of the core: 32-bit words (R5, R9), bytes (R11), windows of 16 words (R33 to R36). -/

namespace Sys2Proof

/-- A word: 32 bits, unsigned, addition modulo 2^32 (R5, R9). -/
abbrev Word := BitVec 32

/-- One byte of a word (R11) or of a message (R60). -/
abbrev Byte := BitVec 8

/-- A window of 16 words: the cipher state, `STATE`, `KS`, `DIN`, `DOUT` (R33 to R36). -/
abbrev Block := Vector Word 16

end Sys2Proof
end

