-- ==== Sys2Proof/Config.lean ====
section
/-! DEFINITION. The values the spec leaves open. Both are free: they have no body, so nothing can be proved of a value of
theirs. A field of the state counts the draws, so each read gets a value of its own. -/

namespace Sys2Proof

/-- BUSREAD_DRAW (R7, R54; D16; U2): what the n-th drawn read returns from `STATE`, `KS` or `DOUT` while `BUSY = 1`.
Any 32-bit value, fresh for each read. Log 3. -/
opaque Config.busreadDraw : Nat → Word

/-- What the n-th drawn read returns while `rst_n` is low (R240; U10): an unspecified value. Log 3, log 5. -/
opaque Config.resetReadDraw : Nat → Word

end Sys2Proof
end

