-- ==== Sys2Proof/Machine/Cipher.lean ====
section
/-! DEFINITION. The cipher's arithmetic as functions of words and windows: the mixer (R120), the block function (R141 to
R146), bytes and words (R11), and the byte mask of one chunk (R172). -/

namespace Sys2Proof.Machine

/-! ### The quarter round (41_quarter_round.md) -/

/-- Rotation left, "defined only for 0 < n < 32" (R10; U1): outside that range it cannot be written. -/
def rotl32 (x : Word) (n : Nat) (_bound : 0 < n ∧ n < 32) : Word := (x <<< n) ||| (x >>> (32 - n))

/-- The mixer (R120): each line reads what the lines before it left. -/
def qround (a b c d : Word) : Word × Word × Word × Word :=
  let a := a + b
  let d := rotl32 (d ^^^ a) 16 (by decide)
  let c := c + d
  let b := rotl32 (b ^^^ c) 12 (by decide)
  let a := a + b
  let d := rotl32 (d ^^^ a) 8 (by decide)
  let c := c + d
  let b := rotl32 (b ^^^ c) 7 (by decide)
  (a, b, c, d)

/-- The mixer on four words of a window: the four are read first, then all four are written (R123, R125, R141). -/
def qrAt (w : Block) (i j k l : Fin 16) : Block :=
  let r := qround w[i] w[j] w[k] w[l]
  (((w.set i r.1).set j r.2.1).set k r.2.2.1).set l r.2.2.2

/-- A window index from a 4-bit field, zero-extended (R82). -/
def windowIndex (q : BitVec 4) : Fin 16 := ⟨q.toNat, q.isLt⟩

/-! ### The block function (42_block_function.md) -/

/-- The column round (R141). -/
def columnRound (w : Block) : Block := qrAt (qrAt (qrAt (qrAt w 0 4 8 12) 1 5 9 13) 2 6 10 14) 3 7 11 15

/-- The diagonal round (R142). -/
def diagonalRound (w : Block) : Block := qrAt (qrAt (qrAt (qrAt w 0 5 10 15) 1 6 11 12) 2 7 8 13) 3 4 9 14

/-- The double round (R143). -/
def doubleRound (w : Block) : Block := diagonalRound (columnRound w)

/-- `n` double rounds, each on the result of the one before. -/
def doubleRounds : Nat → Block → Block
  | 0, w => w
  | n + 1, w => doubleRounds n (doubleRound w)

/-- The 20 rounds: 10 double rounds (R145; 90_conflicts.md C1, C2). -/
def rounds20 (w : Block) : Block := doubleRounds 10 w

/-- The block function: the 20 rounds, then the feed-forward (R146). -/
def blockFn (s : Block) : Block :=
  let w := rounds20 s
  Vector.ofFn fun i : Fin 16 => w[i] + s[i]

/-- Sixteen zero words: what BLOCK, NEXT and CRYPT leave in `STATE` (R152). -/
def zeroBlock : Block := #v[0, 0, 0, 0, 0, 0, 0, 0, 0, 0, 0, 0, 0, 0, 0, 0]

/-! ### Bytes (R11, R59, R60) -/

/-- Byte `j` of a word, 0 the least significant (R11). -/
def byteOf (w : Word) (j : Nat) : Byte := w.extractLsb' (8 * j) 8

/-- The little-endian packing of four bytes (R11). -/
def wordOf (b0 b1 b2 b3 : Byte) : Word := b3 ++ b2 ++ b1 ++ b0

/-- Byte `k` of a window (R11). -/
def wbyte (w : Block) (k : Fin 64) : Byte := byteOf (w[k.val / 4]'(by omega)) (k.val % 4)

/-! ### One chunk (43_keystream.md) -/

/-- Output byte `k` of a chunk of `len` bytes (R172): the xor below `len`, 0x00 from there on. -/
def chunkByte (len : Nat) (din ks : Block) (k : Fin 64) : Byte :=
  if k.val < len then wbyte din k ^^^ wbyte ks k else 0

/-- The output window of a chunk of `len` bytes (R172). -/
def chunkOut (len : Nat) (din ks : Block) : Block :=
  Vector.ofFn fun i : Fin 16 =>
    wordOf (chunkByte len din ks ⟨4 * i.val, by omega⟩) (chunkByte len din ks ⟨4 * i.val + 1, by omega⟩)
      (chunkByte len din ks ⟨4 * i.val + 2, by omega⟩) (chunkByte len din ks ⟨4 * i.val + 3, by omega⟩)

end Sys2Proof.Machine
end

