-- ==== Sys2Proof/Syntax.lean ====
section
/-! DEFINITION. The instructions: one constructor for each row of spec/opcode_table.json, and the two formats they are
written in (R80, R81). Bits the core ignores are operands too, so that no encoding loses a bit. -/

namespace Sys2Proof

/-- The seven commands that can be pending (R37: `op` takes the values 0 to 6; R83). -/
inductive CmdOp where
  | nop | load | qr | dround | block | next | crypt
deriving DecidableEq, Repr

/-- The rows of the opcode table. `ignored` holds the bits R80 and R85 say are ignored. -/
inductive Instr where
  /-- HOST_READ (R53, R80): word index `addr`; the 32 bits of `wdata` are ignored. -/
  | hostRead (addr : BitVec 7) (ignored : BitVec 32)
  /-- HOST_WRITE (R55, R80): word index `addr`, data `wdata`. -/
  | hostWrite (addr : BitVec 7) (wdata : BitVec 32)
  /-- NOP, opcode 0x0 (R104). -/
  | nop (ignored : BitVec 28)
  /-- LOAD, opcode 0x1 (R150). -/
  | load (ignored : BitVec 28)
  /-- QR, opcode 0x2 (R125): the indices of the words used as a, b, c, d; bits 31:20 are ignored. -/
  | qr (qa qb qc qd : BitVec 4) (ignored : BitVec 12)
  /-- DROUND, opcode 0x3 (R151). -/
  | dround (ignored : BitVec 28)
  /-- BLOCK, opcode 0x4 (R152). -/
  | block (ignored : BitVec 28)
  /-- NEXT, opcode 0x5 (R170). -/
  | next (ignored : BitVec 28)
  /-- CRYPT, opcode 0x6 (R172). -/
  | crypt (ignored : BitVec 28)
  /-- RESERVED_7, opcode 0x7 (R84): raises ILLEGAL_CMD. -/
  | reserved7 (ignored : BitVec 28)
  /-- RESERVED_8_F, opcodes 0x8 to 0xF (R84): raises ILLEGAL_CMD. `op` is the whole opcode field. -/
  | reserved8F (op : BitVec 4) (ignored : BitVec 28)
deriving DecidableEq, Repr

/-- The bits of an instruction in one of the core's two formats: a host transaction (R80) or a command word (R81). -/
inductive Frame where
  | bus (tx : BitVec 40)
  | cmd (word : Word)
deriving DecidableEq, Repr

end Sys2Proof
end

