-- ==== Sys2Proof/WellFormed.lean ====
section
/-! DEFINITION. Which terms of `Instr` an encoding stands for. Every field has exactly its width, so one check is left:
the opcode of RESERVED_8_F has bit 3 set (opcode_table.json: mask 0x8, match 0x8; R83). A QR with equal indices IS well
formed: R86 says the encoding allows it and the core refuses it. -/

namespace Sys2Proof

/-- `op` is an opcode of the row RESERVED_8_F: 0x8 to 0xF (R83, R84). -/
def highReserved (op : BitVec 4) : Bool := decide (8 ≤ op.toNat)

/-- The instruction is one that some frame encodes. -/
def Instr.wellFormed : Instr → Bool
  | .hostRead _ _ => true
  | .hostWrite _ _ => true
  | .nop _ => true
  | .load _ => true
  | .qr _ _ _ _ _ => true
  | .dround _ => true
  | .block _ => true
  | .next _ => true
  | .crypt _ => true
  | .reserved7 _ => true
  | .reserved8F op _ => highReserved op

end Sys2Proof
end

