-- ==== Sys2Proof/Decode.lean ====
section
/-! DEFINITION. Decoding and encoding, from R80 to R87. A decoder tells a command from the `OP` field alone (R87), and
every value of every field of a transaction is legal (R80), so only the number of bytes can be wrong. -/

namespace Sys2Proof

/-! ### The fields of a command word (R81, R82) -/

/-- `OP`, bits 3:0. -/
def opField (v : Word) : BitVec 4 := v.extractLsb' 0 4
/-- `QA`, bits 7:4. -/
def qaField (v : Word) : BitVec 4 := v.extractLsb' 4 4
/-- `QB`, bits 11:8. -/
def qbField (v : Word) : BitVec 4 := v.extractLsb' 8 4
/-- `QC`, bits 15:12. -/
def qcField (v : Word) : BitVec 4 := v.extractLsb' 12 4
/-- `QD`, bits 19:16. -/
def qdField (v : Word) : BitVec 4 := v.extractLsb' 16 4
/-- The reserved bits 31:20. -/
def topField (v : Word) : BitVec 12 := v.extractLsb' 20 12
/-- Bits 31:4: all that an opcode other than QR ignores (R85). -/
def restField (v : Word) : BitVec 28 := v.extractLsb' 4 28

/-- The command an opcode selects, none for the reserved ones (R83, R84). -/
def cmdOpOf (op : BitVec 4) : Option CmdOp :=
  match op.toNat with
  | 0 => some .nop
  | 1 => some .load
  | 2 => some .qr
  | 3 => some .dround
  | 4 => some .block
  | 5 => some .next
  | 6 => some .crypt
  | _ => none

/-- The opcode of a command (R83). -/
def opcodeOf : CmdOp → BitVec 4
  | .nop => 0x0
  | .load => 0x1
  | .qr => 0x2
  | .dround => 0x3
  | .block => 0x4
  | .next => 0x5
  | .crypt => 0x6

/-! ### Decoding -/

/-- A command word's instruction (R82 to R85). -/
def decodeCmd (v : Word) : Instr :=
  match (opField v).toNat with
  | 0 => .nop (restField v)
  | 1 => .load (restField v)
  | 2 => .qr (qaField v) (qbField v) (qcField v) (qdField v) (topField v)
  | 3 => .dround (restField v)
  | 4 => .block (restField v)
  | 5 => .next (restField v)
  | 6 => .crypt (restField v)
  | 7 => .reserved7 (restField v)
  | _ => .reserved8F (opField v) (restField v)

/-- A transaction's instruction: bit 39 is `we`, bits 38:32 are `addr`, bits 31:0 are `wdata` (R80). -/
def decodeBus (tx : BitVec 40) : Instr :=
  if tx.getLsbD 39 then .hostWrite (tx.extractLsb' 32 7) (tx.extractLsb' 0 32)
  else .hostRead (tx.extractLsb' 32 7) (tx.extractLsb' 0 32)

/-- The instruction of a frame. -/
def decodeFrame : Frame → Instr
  | .bus tx => decodeBus tx
  | .cmd v => decodeCmd v

/-- Why bytes are no instruction. -/
inductive DecodeError where
  /-- A transaction is 5 bytes (R80) and a command word 4 (R87): this many bytes are neither. Safe: it stops. -/
  | badLength (bytes : Nat)
deriving DecidableEq, Repr

/-- What decoding answers. -/
inductive Decoded where
  | ok (i : Instr)
  | rejected (e : DecodeError)
deriving DecidableEq, Repr

/-- The frame that bytes make, the least significant byte first (log 6). -/
def frameOfBytes : List Byte → Option Frame
  | [b0, b1, b2, b3] => some (.cmd (b3 ++ b2 ++ b1 ++ b0))
  | [b0, b1, b2, b3, b4] => some (.bus (b4 ++ b3 ++ b2 ++ b1 ++ b0))
  | _ => none

/-- Decoding, total on any bytes. -/
def decode (bytes : List Byte) : Decoded :=
  match frameOfBytes bytes with
  | some f => .ok (decodeFrame f)
  | none => .rejected (.badLength bytes.length)

/-! ### Encoding -/

/-- A command word with opcode `op` and the given bits 31:4 (R81). -/
def cmdWord (op : BitVec 4) (rest : BitVec 28) : Word := rest ++ op

/-- The bits 31:4 of a command word whose fields are these (R81). -/
def restOf (qa qb qc qd : BitVec 4) (top : BitVec 12) : BitVec 28 := top ++ qd ++ qc ++ qb ++ qa

/-- A transaction `we:1 addr:7 wdata:32` (R80). -/
def busWord (we : Bool) (addr : BitVec 7) (wdata : Word) : BitVec 40 := BitVec.ofBool we ++ addr ++ wdata

/-- The frame of an instruction. -/
def encode : Instr → Frame
  | .hostRead a x => .bus (busWord false a x)
  | .hostWrite a v => .bus (busWord true a v)
  | .nop x => .cmd (cmdWord 0x0 x)
  | .load x => .cmd (cmdWord 0x1 x)
  | .qr a b c d x => .cmd (cmdWord 0x2 (restOf a b c d x))
  | .dround x => .cmd (cmdWord 0x3 x)
  | .block x => .cmd (cmdWord 0x4 x)
  | .next x => .cmd (cmdWord 0x5 x)
  | .crypt x => .cmd (cmdWord 0x6 x)
  | .reserved7 x => .cmd (cmdWord 0x7 x)
  | .reserved8F op x => .cmd (cmdWord op x)

/-- The bytes of a frame, the least significant first (log 6). -/
def frameBytes : Frame → List Byte
  | .cmd v => [v.extractLsb' 0 8, v.extractLsb' 8 8, v.extractLsb' 16 8, v.extractLsb' 24 8]
  | .bus tx => [tx.extractLsb' 0 8, tx.extractLsb' 8 8, tx.extractLsb' 16 8, tx.extractLsb' 24 8, tx.extractLsb' 32 8]

/-- The bytes of an instruction. -/
def encodeBytes (i : Instr) : List Byte := frameBytes (encode i)

/-! ### The opcode table's numbering -/

/-- The frame of a table word: up to 32 bits a command word, up to 40 a transaction (opcode_table.json). The bits above
`nbits` are zero. -/
def tableFrame (nbits w : Nat) : Option Frame :=
  if nbits ≤ 32 then some (.cmd (BitVec.ofNat 32 (w % 2 ^ nbits)))
  else if nbits ≤ 40 then some (.bus (BitVec.ofNat 40 (w % 2 ^ nbits)))
  else none

/-- What the decoder reads from an instruction whose bits, numbered as the table numbers them, are `w`. -/
def decodeTableWord (nbits w : Nat) : Option Instr :=
  match tableFrame nbits w with
  | none => none
  | some f =>
    match decode (frameBytes f) with
    | .ok i => some i
    | .rejected _ => none

end Sys2Proof
end

