-- ==== Sys2Proof/Machine/State.lean ====
section
/-! DEFINITION. The state of the core (R20 to R41): plain data. `ID`, `CONST` and `CTRL` hold nothing (they are hardwired
or have no storage: R20, R21, R29), and `BUSY` and `irq` are views (R37, R38). The spec's bits are `BitVec`; flags are
`Bool`; the schedule is the model's own (log 2). -/

namespace Sys2Proof.Machine

/-- An accepted command that has not completed (R37). The indices mean something only for QR. -/
structure Pend where
  op : CmdOp
  qa : BitVec 4
  qb : BitVec 4
  qc : BitVec 4
  qd : BitVec 4
deriving DecidableEq, Repr

/-- What happens next, one entry a step (R14: host steps, core steps and reset steps, in any interleaving). -/
inductive Event where
  /-- The host presents one transaction on the port (R80). -/
  | bus (tx : BitVec 40)
  /-- A bridge delivers an access by byte offset and size in bytes (R12, R62; U4). -/
  | bridge (we : Bool) (off size : Nat) (wdata : BitVec 32)
  /-- The core's turn: the pending command completes, or the idle core does nothing (R103, R225). -/
  | core
  /-- `rst_n` is driven low (`true`: the reset step) or high (R240). -/
  | rst (low : Bool)
  /-- Power or clock is lost (R225; U14). -/
  | powerLoss
deriving DecidableEq, Repr

/-- The machine. -/
structure State where
  /-- `STATUS.DONE` (R24). -/
  done : Bool
  /-- `STATUS.ERR` (R25). -/
  err : Bool
  /-- `STATUS.ERRCODE` (R26). -/
  errcode : BitVec 4
  /-- `IRQEN`: bit 0 is DONE_IE, bit 1 is ERR_IE (R27). -/
  irqen : BitVec 2
  /-- `LEN[6:0]` (R28). -/
  len : BitVec 7
  /-- `KEY[0..7]` (R30). -/
  key : Vector (BitVec 32) 8
  /-- `CTR` (R31). -/
  ctr : BitVec 32
  /-- `NONCE[0..2]` (R32). -/
  nonce : Vector (BitVec 32) 3
  /-- `STATE[0..15]`, the working words (R33). -/
  work : Vector (BitVec 32) 16
  /-- `KS[0..15]` (R34). -/
  ks : Vector (BitVec 32) 16
  /-- `DIN[0..15]` (R35). -/
  din : Vector (BitVec 32) 16
  /-- `DOUT[0..15]` (R36). -/
  dout : Vector (BitVec 32) 16
  /-- `PEND` (R37); `STATUS.BUSY` is 1 exactly when it is not none. -/
  pend : Option Pend
  /-- `rst_n` is low (R240). -/
  rstLow : Bool
  /-- `bus_rdata`: the value the last read returned (R80, D3). Log 1. -/
  busRdata : BitVec 32
  /-- The model's own: how many free values reads have drawn (R54, R240). Log 3. -/
  draws : Nat
  /-- The model's own: what happens next (R14). Log 2. -/
  schedule : List Event
deriving DecidableEq, Repr

/-- Why the machine stops with a fault. -/
inductive Fault where
  /-- Raised by the step on a bridge access at an offset outside 0x000 to 0x1FF, which the register space does not have
  (R50, R52). No instruction raises it. Safe: the machine stops where the spec has no register. -/
  | offsetOutsideSpace
deriving DecidableEq, Repr

/-- Why a step is refused. -/
inductive Refusal where
  /-- Raised by exec's arm of an instruction that has no meaning yet. Safe. No arm uses it. -/
  | notModelled (mnemonic : String)
  /-- Raised by the step on a bridge access that is not a 32-bit word at a multiple of 4: "a model refuses such an access"
  (R62; U4). No instruction raises it. Safe: it errs toward unprovable. -/
  | notAWordAccess
  /-- Raised by the step when power or clock is lost: "outside this spec" (R225; U14). No instruction raises it. Safe. -/
  | powerOrClockLost
deriving DecidableEq, Repr

/-- The machine right after reset (R240, and 10_state.md section 7): every register 0, nothing pending, `rst_n` high.
`busRdata`, `draws` and `schedule` are the model's choices (logs 1, 2, 3). -/
def State.reset : State where
  done := false
  err := false
  errcode := 0
  irqen := 0
  len := 0
  key := #v[0, 0, 0, 0, 0, 0, 0, 0]
  ctr := 0
  nonce := #v[0, 0, 0]
  work := #v[0, 0, 0, 0, 0, 0, 0, 0, 0, 0, 0, 0, 0, 0, 0, 0]
  ks := #v[0, 0, 0, 0, 0, 0, 0, 0, 0, 0, 0, 0, 0, 0, 0, 0]
  din := #v[0, 0, 0, 0, 0, 0, 0, 0, 0, 0, 0, 0, 0, 0, 0, 0]
  dout := #v[0, 0, 0, 0, 0, 0, 0, 0, 0, 0, 0, 0, 0, 0, 0, 0]
  pend := none
  rstLow := false
  busRdata := 0
  draws := 0
  schedule := []

end Sys2Proof.Machine
end

