-- ==== Sys2Proof/Machine/Ops.lean ====
section
/-! DEFINITION. The named operations over the state: one update a field, the initial state (R140), the error action (R205)
and the return from it (R206, R214), acceptance (R100), completion (R103), and the reset line (R240). -/

namespace Sys2Proof.Machine

/-! ### One update for each field -/

/-- `STATUS.DONE <- v`. -/
def State.setDone (s : State) (v : Bool) : State := { s with done := v }
/-- `STATUS.ERR <- v`. -/
def State.setErr (s : State) (v : Bool) : State := { s with err := v }
/-- `STATUS.ERRCODE <- v`. -/
def State.setErrcode (s : State) (v : BitVec 4) : State := { s with errcode := v }
/-- `IRQEN <- v`. -/
def State.setIrqen (s : State) (v : BitVec 2) : State := { s with irqen := v }
/-- `LEN <- v`. -/
def State.setLen (s : State) (v : BitVec 7) : State := { s with len := v }
/-- `KEY <- v`. -/
def State.setKey (s : State) (v : Vector Word 8) : State := { s with key := v }
/-- `CTR <- v`. -/
def State.setCtr (s : State) (v : Word) : State := { s with ctr := v }
/-- `NONCE <- v`. -/
def State.setNonce (s : State) (v : Vector Word 3) : State := { s with nonce := v }
/-- `STATE <- v`. -/
def State.setWork (s : State) (v : Block) : State := { s with work := v }
/-- `KS <- v`. -/
def State.setKs (s : State) (v : Block) : State := { s with ks := v }
/-- `DIN <- v`. -/
def State.setDin (s : State) (v : Block) : State := { s with din := v }
/-- `DOUT <- v`. -/
def State.setDout (s : State) (v : Block) : State := { s with dout := v }
/-- `PEND <- v`; `STATUS.BUSY` follows it (R37). -/
def State.setPend (s : State) (v : Option Pend) : State := { s with pend := v }
/-- The level of `rst_n`. -/
def State.setRstLow (s : State) (v : Bool) : State := { s with rstLow := v }
/-- A read returned `v`, and `n` free values were drawn for it. -/
def State.setRead (s : State) (v : Word) (n : Nat) : State := { s with busRdata := v, draws := s.draws + n }
/-- What happens next. -/
def State.setSchedule (s : State) (v : List Event) : State := { s with schedule := v }

/-! ### Busy, constants, the initial state -/

/-- `STATUS.BUSY`: 1 exactly when a command is pending (R23, R37). -/
def State.busy (s : State) : Bool := s.pend.isSome

/-- The hardwired value of `ID` (R20). -/
def idValue : Word := 0x43433230

/-- The hardwired `CONST[0..3]` (R29). -/
def cipherConst : Vector Word 4 := #v[0x61707865, 0x3320646e, 0x79622d32, 0x6b206574]

/-- `InitState()` (R140): constants, key, counter, nonce, in that order. -/
def State.initState (s : State) : Block :=
  #v[cipherConst[0], cipherConst[1], cipherConst[2], cipherConst[3],
    s.key[0], s.key[1], s.key[2], s.key[3], s.key[4], s.key[5], s.key[6], s.key[7],
    s.ctr, s.nonce[0], s.nonce[1], s.nonce[2]]

/-! ### Errors: the core's only exceptions (60_exceptions.md) -/

/-- The causes of an error (R200). -/
inductive ErrCode where
  | illegalCmd | badLen | badQrIndex | busyWrite
deriving DecidableEq, Repr

/-- The code of a cause (R200). -/
def codeOf : ErrCode → BitVec 4
  | .illegalCmd => 1
  | .badLen => 2
  | .badQrIndex => 3
  | .busyWrite => 4

/-- `raise Error(code)` (R13, R205): ERRCODE keeps the first code since ERR was last 0, ERR becomes 1, and nothing else
changes (R213). -/
def State.raise (s : State) (c : ErrCode) : State :=
  (if s.err then s else s.setErrcode (codeOf c)).setErr true

/-- `StatusWrite(v)` (R206): bit 1 clears DONE; bit 2 clears ERR and ERRCODE, the return from an error (R214). -/
def State.statusWrite (s : State) (v : Word) : State :=
  let s1 := if v.getLsbD 1 then s.setDone false else s
  if v.getLsbD 2 then (s1.setErr false).setErrcode 0 else s1

/-! ### The life cycle of a command (40_command_protocol.md) -/

/-- No two of the four indices are equal (R100). -/
def distinct4 (a b c d : BitVec 4) : Bool := a != b && a != c && a != d && b != c && b != d && c != d

/-- What PEND holds once the command `op` of the word `v` is accepted (R100). -/
def pendOf (op : CmdOp) (v : Word) : Pend := ⟨op, qaField v, qbField v, qcField v, qdField v⟩

/-- Acceptance: PEND holds the command (so BUSY is 1) and DONE is 0 (R100). -/
def State.accept (s : State) (p : Pend) : State := (s.setPend (some p)).setDone false

/-- `Command(v)` (R100, R211), for a core that is not busy: the first check that fails raises its error, else the command
is accepted. -/
def State.command (s : State) (v : Word) : State :=
  match cmdOpOf (opField v) with
  | none => s.raise .illegalCmd
  | some op =>
    if op = .crypt ∧ 64 < s.len.toNat then s.raise .badLen
    else if op = .qr ∧ distinct4 (qaField v) (qbField v) (qcField v) (qdField v) = false then s.raise .badQrIndex
    else s.accept (pendOf op v)

/-- The end of `Complete` (R103): PEND is none (so BUSY is 0) and DONE is 1. -/
def State.finish (s : State) : State := (s.setPend none).setDone true

/-- The instruction of a pending command (R103). PEND keeps no reserved bits, so they are 0; no command reads them. -/
def Pend.instr (p : Pend) : Instr :=
  match p.op with
  | .nop => .nop (restOf p.qa p.qb p.qc p.qd 0)
  | .load => .load (restOf p.qa p.qb p.qc p.qd 0)
  | .qr => .qr p.qa p.qb p.qc p.qd 0
  | .dround => .dround (restOf p.qa p.qb p.qc p.qd 0)
  | .block => .block (restOf p.qa p.qb p.qc p.qd 0)
  | .next => .next (restOf p.qa p.qb p.qc p.qd 0)
  | .crypt => .crypt (restOf p.qa p.qb p.qc p.qd 0)

/-! ### Reset (70_reset_and_hazards.md) -/

/-- The reset step (R240): every register takes its reset value and a pending command is abandoned. What the model keeps
beside the spec's registers (the last read's value, the count of draws, the schedule) stays (log 5). -/
def State.resetStep (s : State) : State :=
  { State.reset with busRdata := s.busRdata, draws := s.draws, schedule := s.schedule }

/-- `rst_n` driven low performs the reset step; driven high it lets transactions in again (R240). -/
def State.driveReset (s : State) (low : Bool) : State :=
  if low then s.resetStep.setRstLow true else s.setRstLow false

end Sys2Proof.Machine
end

