-- ==== Sys2Proof/Machine/Flags.lean ====
section
/-! DEFINITION. The flags as the outside sees them: the STATUS word (R22) and the interrupt line (R38, R210). The core has no
arithmetic flags (R40). -/

namespace Sys2Proof.Machine

/-- What `STATUS` reads (R22, R53): BUSY bit 0, DONE bit 1, ERR bit 2, ERRCODE bits 7:4, every other bit 0. -/
def State.statusWord (s : State) : Word :=
  (0 : BitVec 24) ++ s.errcode ++ (0 : BitVec 1) ++ BitVec.ofBool s.err ++ BitVec.ofBool s.done ++ BitVec.ofBool s.busy

/-- The interrupt output, level-sensitive (R38, R210). -/
def State.irq (s : State) : Bool := (s.done && s.irqen.getLsbD 0) || (s.err && s.irqen.getLsbD 1)

end Sys2Proof.Machine
end

