-- ==== Sys2Proof/Machine/Operands.lean ====
section
/-! DEFINITION. The operands of a transaction: which register a word index names (R50, R52), what reading it returns (R53,
R54), and what writing it does (R55). -/

namespace Sys2Proof.Machine

/-- The registers of the map (R50). -/
inductive Reg where
  | id | ctrl | status | irqen | len
  | const (i : Fin 4)
  | key (i : Fin 8)
  | ctr
  | nonce (i : Fin 3)
  | work (i : Fin 16)
  | ks (i : Fin 16)
  | din (i : Fin 16)
  | dout (i : Fin 16)
  | reserved
deriving DecidableEq, Repr

/-- The register at word index `n`, byte offset `4 * n` (R50, R52). -/
def regAtNat (n : Nat) : Reg :=
  if n = 0 then .id
  else if n = 1 then .ctrl
  else if n = 2 then .status
  else if n = 3 then .irqen
  else if n = 4 then .len
  else if n < 16 then .reserved
  else if h : n < 20 then .const ⟨n - 16, by omega⟩
  else if h : n < 28 then .key ⟨n - 20, by omega⟩
  else if n = 28 then .ctr
  else if h : n < 32 then .nonce ⟨n - 29, by omega⟩
  else if h : n < 48 then .work ⟨n - 32, by omega⟩
  else if h : n < 64 then .ks ⟨n - 48, by omega⟩
  else if h : n < 80 then .din ⟨n - 64, by omega⟩
  else if h : n < 96 then .dout ⟨n - 80, by omega⟩
  else .reserved

/-- The register a transaction names. -/
def regAt (addr : BitVec 7) : Reg := regAtNat addr.toNat

/-- The word index of `CTRL` (offset 0x004, R50). -/
def ctrlAddr : BitVec 7 := 1

/-! ### Reading -/

/-- The windows whose reads are unspecified while busy (R54). -/
def Reg.drawnWhileBusy : Reg → Bool
  | .work _ => true
  | .ks _ => true
  | .dout _ => true
  | _ => false

/-- What a register holds (R53); reserved offsets and `CTRL` read 0 (R21, R56). -/
def State.regValue (s : State) : Reg → Word
  | .id => idValue
  | .ctrl => 0
  | .status => s.statusWord
  | .irqen => s.irqen.setWidth 32
  | .len => s.len.setWidth 32
  | .const i => cipherConst[i]
  | .key i => s.key[i]
  | .ctr => s.ctr
  | .nonce i => s.nonce[i]
  | .work i => s.work[i]
  | .ks i => s.ks[i]
  | .din i => s.din[i]
  | .dout i => s.dout[i]
  | .reserved => 0

/-- `MemRead` (R53, R54) of a core out of reset: the value goes to `bus_rdata`, a busy window's is drawn, and no register
changes (R58). -/
def State.read (s : State) (r : Reg) : State :=
  if s.busy && r.drawnWhileBusy then s.setRead (Config.busreadDraw s.draws) 1 else s.setRead (s.regValue r) 0

/-- A read while `rst_n` is low: unspecified (R240), but `ID` reads its constant "including during reset" (R20). Log 5. -/
def State.readInReset (s : State) (r : Reg) : State :=
  if r = .id then s.setRead idValue 0 else s.setRead (Config.resetReadDraw s.draws) 1

/-! ### Writing -/

/-- The registers a busy core refuses to have written (R102, R204). -/
def Reg.frozen : Reg → Bool
  | .ctrl => true
  | .len => true
  | .key _ => true
  | .ctr => true
  | .nonce _ => true
  | .work _ => true
  | .din _ => true
  | _ => false

/-- What a write that is not refused does (R55); read-only and reserved offsets ignore it (R56, R57). -/
def State.store (s : State) (r : Reg) (v : Word) : State :=
  match r with
  | .ctrl => s.command v
  | .status => s.statusWrite v
  | .irqen => s.setIrqen (v.setWidth 2)
  | .len => s.setLen (v.setWidth 7)
  | .key i => s.setKey (s.key.set i v)
  | .ctr => s.setCtr v
  | .nonce i => s.setNonce (s.nonce.set i v)
  | .work i => s.setWork (s.work.set i v)
  | .din i => s.setDin (s.din.set i v)
  | .id => s
  | .const _ => s
  | .ks _ => s
  | .dout _ => s
  | .reserved => s

/-- `MemWrite` (R55) of a core out of reset: BUSY_WRITE is checked first (R211), then the register is written. -/
def State.write (s : State) (r : Reg) (v : Word) : State :=
  if s.busy && r.frozen then s.raise .busyWrite else s.store r v

end Sys2Proof.Machine
end

