-- ==== Sys2Proof/Machine/HostAccess.lean ====
section
/-! DEFINITION. The two host transactions, HOST_READ and HOST_WRITE (R53, R55, R80), and the one shared shape of a command's
turn (R100, R103). -/

namespace Sys2Proof.Machine

/-- A write transaction: ignored while `rst_n` is low (R240), else `MemWrite` (R55). -/
def hostStore (r : Reg) (v : Word) (s : State) : State := if s.rstLow then s else s.write r v

/-- HOST_READ (R53, R54, R58); `wdata` is ignored (R80). -/
def execHostRead (addr : BitVec 7) (_ignored : BitVec 32) (s : State) : Host.Outcome State Fault Refusal :=
  .next (if s.rstLow then s.readInReset (regAt addr) else s.read (regAt addr))

/-- HOST_WRITE (R55). -/
def execHostWrite (addr : BitVec 7) (wdata : BitVec 32) (s : State) : Host.Outcome State Fault Refusal :=
  .next (hostStore (regAt addr) wdata s)

/-- The pending command is the command `op` of the word `v`: the opcode, and for QR the four indices (R37: the indices are
"meaningful only for QR"). -/
def State.holds (s : State) (op : CmdOp) (v : Word) : Bool :=
  match s.pend with
  | some p => p.op == op && (op != .qr || p == pendOf op v)
  | none => false

/-- A command's turn (log 7). When PEND holds the command, the turn is `Complete`: its effect, then PEND none, BUSY 0,
DONE 1 (R103). Otherwise the turn presents its word `v` to `CTRL` (R55, R100): accepted, or refused with an error. -/
def commandTurn (op : CmdOp) (v : Word) (effect : State → State) (s : State) : Host.Outcome State Fault Refusal :=
  if s.rstLow = false ∧ s.holds op v = true then .next (effect s).finish
  else .next (hostStore .ctrl v s)

end Sys2Proof.Machine
end

