-- ==== Sys2Proof/Machine/BlockFunction.lean ====
section
/-! DEFINITION. LOAD, DROUND and BLOCK (R150 to R152). -/

namespace Sys2Proof.Machine

/-- The block of the current parameters goes to KS, and STATE is zeroed (R152; also in R170 and R172). -/
def State.generateBlock (s : State) : State := (s.setKs (blockFn s.initState)).setWork zeroBlock

/-- What LOAD does at completion (R150). -/
def loadEffect (s : State) : State := s.setWork s.initState

/-- What DROUND does at completion (R151). -/
def droundEffect (s : State) : State := s.setWork (doubleRound s.work)

/-- What BLOCK does at completion: CTR is not changed (R152). -/
def blockEffect (s : State) : State := s.generateBlock

/-- LOAD (R150). -/
def execLoad (ignored : BitVec 28) (s : State) : Host.Outcome State Fault Refusal :=
  commandTurn .load (cmdWord 0x1 ignored) loadEffect s

/-- DROUND (R151). -/
def execDround (ignored : BitVec 28) (s : State) : Host.Outcome State Fault Refusal :=
  commandTurn .dround (cmdWord 0x3 ignored) droundEffect s

/-- BLOCK (R152). -/
def execBlock (ignored : BitVec 28) (s : State) : Host.Outcome State Fault Refusal :=
  commandTurn .block (cmdWord 0x4 ignored) blockEffect s

end Sys2Proof.Machine
end

