-- ==== Sys2Proof/Machine/Keystream.lean ====
section
/-! DEFINITION. NEXT and CRYPT (R170 to R174). -/

namespace Sys2Proof.Machine

/-- The counter's advance, modulo 2^32, with no error and no flag (R171). -/
def State.advanceCtr (s : State) : State := s.setCtr (s.ctr + 1)

/-- What NEXT does at completion: the block of the old counter, then the advance (R170). -/
def nextEffect (s : State) : State := s.generateBlock.advanceCtr

/-- What CRYPT does at completion (R172): nothing when LEN is 0; else the block of the old counter, the chunk's output,
and the advance. -/
def cryptEffect (s : State) : State :=
  if s.len = 0 then s
  else (s.generateBlock.setDout (chunkOut s.len.toNat s.din s.generateBlock.ks)).advanceCtr

/-- NEXT (R170). -/
def execNext (ignored : BitVec 28) (s : State) : Host.Outcome State Fault Refusal :=
  commandTurn .next (cmdWord 0x5 ignored) nextEffect s

/-- CRYPT (R172). LEN over 64 is refused when the word is presented (R202). -/
def execCrypt (ignored : BitVec 28) (s : State) : Host.Outcome State Fault Refusal :=
  commandTurn .crypt (cmdWord 0x6 ignored) cryptEffect s

end Sys2Proof.Machine
end

