-- ==== Sys2Proof/Machine/Protocol.lean ====
section
/-! DEFINITION. NOP (R104) and the reserved opcodes (R84, R201). -/

namespace Sys2Proof.Machine

/-- What NOP does at completion: nothing (R104). -/
def nopEffect (s : State) : State := s

/-- NOP (R104). -/
def execNop (ignored : BitVec 28) (s : State) : Host.Outcome State Fault Refusal :=
  commandTurn .nop (cmdWord 0x0 ignored) nopEffect s

/-- RESERVED_7: presented to `CTRL` it raises ILLEGAL_CMD, or BUSY_WRITE while busy; it is never pending (R84, R201, R211). -/
def execReserved7 (ignored : BitVec 28) (s : State) : Host.Outcome State Fault Refusal :=
  .next (hostStore .ctrl (cmdWord 0x7 ignored) s)

/-- RESERVED_8_F: as RESERVED_7, for the opcodes 0x8 to 0xF (R84, R201, R211). -/
def execReserved8F (op : BitVec 4) (ignored : BitVec 28) (s : State) : Host.Outcome State Fault Refusal :=
  .next (hostStore .ctrl (cmdWord op ignored) s)

end Sys2Proof.Machine
end

