-- ==== Sys2Proof/Machine/QuarterRound.lean ====
section
/-! DEFINITION. QR (R125). -/

namespace Sys2Proof.Machine

/-- What QR does at completion: one quarter round on the four named working words (R125). -/
def qrEffect (qa qb qc qd : BitVec 4) (s : State) : State :=
  s.setWork (qrAt s.work (windowIndex qa) (windowIndex qb) (windowIndex qc) (windowIndex qd))

/-- QR (R125). Equal indices are refused when the word is presented (R203). -/
def execQr (qa qb qc qd : BitVec 4) (ignored : BitVec 12) (s : State) : Host.Outcome State Fault Refusal :=
  commandTurn .qr (cmdWord 0x2 (restOf qa qb qc qd ignored)) (qrEffect qa qb qc qd) s

end Sys2Proof.Machine
end

