-- ==== Sys2Proof/Machine/Dispatch.lean ====
section
/-! DEFINITION. One arm for each instruction. -/

namespace Sys2Proof.Machine

def exec (i : Instr) (s : State) : Host.Outcome State Fault Refusal :=
  match i with
  | .hostRead addr ignored => Sys2Proof.Machine.execHostRead addr ignored s
  | .hostWrite addr wdata => Sys2Proof.Machine.execHostWrite addr wdata s
  | .nop ignored => Sys2Proof.Machine.execNop ignored s
  | .load ignored => Sys2Proof.Machine.execLoad ignored s
  | .qr qa qb qc qd ignored => Sys2Proof.Machine.execQr qa qb qc qd ignored s
  | .dround ignored => Sys2Proof.Machine.execDround ignored s
  | .block ignored => Sys2Proof.Machine.execBlock ignored s
  | .next ignored => Sys2Proof.Machine.execNext ignored s
  | .crypt ignored => Sys2Proof.Machine.execCrypt ignored s
  | .reserved7 ignored => Sys2Proof.Machine.execReserved7 ignored s
  | .reserved8F op ignored => Sys2Proof.Machine.execReserved8F op ignored s

end Sys2Proof.Machine
end

