-- ==== Sys2Proof/Machine/Fetch.lean ====
section
/-! DEFINITION. What the next step is (R14): the schedule's next entry, decoded. The core fetches no program (R69): an
instruction reaches it as a transaction on the port, as a command word in a `CTRL` write, or as the pending command. -/

namespace Sys2Proof.Machine

/-- What the next step does. -/
inductive Turn where
  /-- Runs the instruction on the state. -/
  | run (i : Instr) (s : State)
  /-- Moves without an instruction: the reset line, or the idle core. -/
  | move (s : State)
  | fault (r : Fault)
  | refused (r : Refusal)
deriving DecidableEq, Repr

/-- The instruction of a transaction: a `CTRL` write presents its data as a command word (R21, R69), unless the core is
busy, when "the word is not decoded at all" (R211). -/
def txInstr (tx : BitVec 40) (s : State) : Instr :=
  match decodeBus tx with
  | .hostWrite addr wdata => if addr = ctrlAddr ∧ s.pend = none then decodeCmd wdata else .hostWrite addr wdata
  | i => i

/-- The core's turn: the pending command, or idling (R103, R225, R241). -/
def coreTurn (s : State) : Turn :=
  match s.pend with
  | some p => .run p.instr s
  | none => .move s

/-- A bridge's access (R12, R50, R62; U4): the transaction of that offset, where the port can express it. -/
def bridgeTurn (we : Bool) (off size : Nat) (wdata : Word) (s : State) : Turn :=
  if size ≠ 4 ∨ off % 4 ≠ 0 then .refused .notAWordAccess
  else if 0x200 ≤ off then .fault .offsetOutsideSpace
  else .run (txInstr (busWord we (BitVec.ofNat 7 (off / 4)) wdata) s) s

/-- What the next step does. With nothing left on the schedule the host is silent for good, and it is the core's turn: so a
pending command completes after finitely many host steps (R14, R105; log 2). -/
def fetch (s : State) : Turn :=
  match s.schedule with
  | [] => coreTurn s
  | .core :: rest => coreTurn (s.setSchedule rest)
  | .bus tx :: rest => .run (txInstr tx s) (s.setSchedule rest)
  | .bridge we off size wdata :: rest => bridgeTurn we off size wdata (s.setSchedule rest)
  | .rst low :: rest => .move ((s.setSchedule rest).driveReset low)
  | .powerLoss :: _ => .refused .powerOrClockLost

/-- The host presents the frame next: a transaction on the port, or a command word in a `CTRL` write. A command word is
decoded only by a core that is not busy (R211), so nothing is pending when it is presented. Log 8. -/
def State.present (s : State) : Frame → State
  | .bus tx => s.setSchedule (.bus tx :: s.schedule)
  | .cmd v => (s.setPend none).setSchedule (.bus (busWord true ctrlAddr v) :: s.schedule)

end Sys2Proof.Machine
end

