-- ==== Sys2Proof/Machine/Step.lean ====
section
/-! DEFINITION. One step of the machine, and where the next instruction is placed. -/

namespace Sys2Proof.Machine

/-- One step: what `fetch` says, with `exec` for an instruction (R14). -/
def step (s : State) : Host.Outcome State Fault Refusal :=
  match fetch s with
  | .run i t => exec i t
  | .move t => .next t
  | .fault r => .fault r
  | .refused r => .refused r

/-- `s` with the instruction of a table word presented next (log 8). -/
def State.withFetchWord (s : State) (nbits w : Nat) : State :=
  match tableFrame nbits w with
  | some f => s.present f
  | none => s

end Sys2Proof.Machine
end

