-- ==== Sys2Proof/Machine/HostPrograms.lean ====
section
/-! DEFINITION. The host's side as the spec writes it: the forms `wr` and `rd` (R88), the pseudo-instructions (R89), and the
source's one operation, `encrypt`, as a host loop of CRYPT commands (R175). The core itself knows none of these. -/

namespace Sys2Proof.Machine

/-! ### Forms and pseudo-instructions, as schedules (R88, R89) -/

/-- `wr off, v`, by word index (R88). -/
def wr (addr : BitVec 7) (v : Word) : Event := .bus (busWord true addr v)

/-- `rd off`, by word index (R88). -/
def rd (addr : BitVec 7) : Event := .bus (busWord false addr 0)

/-- `cmd` for a command without operands (R89). -/
def cmd (op : CmdOp) : Event := wr ctrlAddr (cmdWord (opcodeOf op) 0)

/-- `cmd QR a, b, c, d` (R89). -/
def cmdQr (a b c d : BitVec 4) : Event := wr ctrlAddr (cmdWord 0x2 (restOf a b c d 0))

/-- `wait` (R89): `polls` reads of STATUS find the core busy, it completes, and one more read ends the loop. -/
def wait (polls : Nat) : List Event := List.replicate polls (rd 2) ++ [.core, rd 2]

/-- `ack` (R89): clears DONE and ERR. -/
def ack : Event := wr 2 0x00000006

/-- `setkey k0..k7` (R89). -/
def setkey (k : Vector Word 8) : List Event :=
  [wr 20 k[0], wr 21 k[1], wr 22 k[2], wr 23 k[3], wr 24 k[4], wr 25 k[5], wr 26 k[6], wr 27 k[7]]

/-- `setnonce n0, n1, n2` (R89). -/
def setnonce (n : Vector Word 3) : List Event := [wr 29 n[0], wr 30 n[1], wr 31 n[2]]

/-- `setctr c` (R89). -/
def setctr (c : Word) : List Event := [wr 28 c]

/-! ### Running a schedule -/

/-- The state after the steps of these events, one step each, whatever else was scheduled; a stop leaves the state. -/
def runEvents : List Event → State → State
  | [], s => s
  | e :: rest, s =>
    match step (s.setSchedule [e]) with
    | .next t => runEvents rest t
    | .fault _ => s
    | .refused _ => s

/-! ### Whole messages (R175) -/

/-- Message byte `k` of a chunk; past its end "any value" will do (R175): the host's filler. -/
def chunkByteAt (filler : Nat → Byte) (c : List Byte) (k : Nat) : Byte := c.getD k (filler k)

/-- Word `i` of the window that holds the chunk (R60). -/
def chunkWord (filler : Nat → Byte) (c : List Byte) (i : Nat) : Word :=
  wordOf (chunkByteAt filler c (4 * i)) (chunkByteAt filler c (4 * i + 1)) (chunkByteAt filler c (4 * i + 2))
    (chunkByteAt filler c (4 * i + 3))

/-- The host's events for one chunk (R175): write DIN, write LEN, `cmd CRYPT`, `wait` (`polls` reads find the core busy). -/
def chunkEvents (polls : Nat) (filler : Nat → Byte) (c : List Byte) : List Event :=
  (List.range 16).map (fun i => wr (BitVec.ofNat 7 (64 + i)) (chunkWord filler c i)) ++
    ([wr 4 (BitVec.ofNat 32 c.length), cmd .crypt] ++ wait polls)

/-- The bytes the host reads back: byte `k` of DOUT for each `k` below `n` (R175). -/
def outBytes (n : Nat) (dout : Block) : List Byte :=
  (List.range n).map fun k => if h : k < 64 then wbyte dout ⟨k, h⟩ else 0

/-- The loop over the chunks of up to 64 bytes, at most `fuel` of them (R175). -/
def encryptChunks (polls : Nat) (filler : Nat → Byte) : Nat → List Byte → State → List Byte × State
  | 0, _, s => ([], s)
  | fuel + 1, m, s =>
    if m = [] then ([], s)
    else
      let c := m.take 64
      let t := runEvents (chunkEvents polls filler c) s
      let r := encryptChunks polls filler fuel (m.drop 64) t
      (outBytes c.length t.dout ++ r.1, r.2)

/-- `encrypt(M, key, nonce, counter)` as the host runs it on a core (R175): the output, and the core afterwards. `polls` and
`filler` are what R175 leaves to the host and to the core's pace. -/
def encrypt (polls : Nat) (filler : Nat → Byte) (key : Vector Word 8) (nonce : Vector Word 3) (counter : Word)
    (m : List Byte) (s : State) : List Byte × State :=
  encryptChunks polls filler m.length m (runEvents (setkey key ++ (setnonce nonce ++ setctr counter)) s)

/-- Byte `k` of the keystream block of counter `x` (R175): `KSB(x)[k]`. -/
def keystreamByte (key : Vector Word 8) (nonce : Vector Word 3) (x : Word) (k : Fin 64) : Byte :=
  wbyte (blockFn (State.initState { State.reset with key := key, nonce := nonce, ctr := x })) k

end Sys2Proof.Machine
end

