-- ==== Sys2Proof/Safety.lean ====
section
/-! DEFINITION. What a good state and a careful host are, in the terms the statements use. -/

namespace Sys2Proof.Machine

/-- The registers the spec gives the core, without the model's own fields and the reset line: what R240 resets. -/
def State.registersReset (s : State) : Prop :=
  { s with rstLow := false, busRdata := 0, draws := 0, schedule := [] } = State.reset

/-- What every reachable state satisfies:
ERRCODE is 0 exactly when ERR is 0, and never above 4 (R26, R200; U8);
a pending command passed its check and DONE is 0 (R100, R102);
while `rst_n` is low every register holds its reset value (R240). -/
structure State.Inv (s : State) : Prop where
  errcode_iff : s.err = false ↔ s.errcode = 0
  errcode_le : s.errcode.toNat ≤ 4
  pend_done : s.pend.isSome → s.done = false
  pend_qr : ∀ p, s.pend = some p → p.op = .qr → distinct4 p.qa p.qb p.qc p.qd = true
  pend_crypt : ∀ p, s.pend = some p → p.op = .crypt → s.len.toNat ≤ 64
  in_reset : s.rstLow = true → s.registersReset

/-- The core is out of reset and idle: transactions are honoured and nothing is refused as busy (R241, R250). -/
def State.ready (s : State) : Prop := s.rstLow = false ∧ s.pend = none

/-- The host's next event is a write of a frozen register to a busy core: what R250 tells a program never to do. -/
def State.writesWhileBusy (s : State) : Prop :=
  s.busy = true ∧ ∃ addr wdata, fetch s = .run (.hostWrite addr wdata) (s.setSchedule s.schedule.tail) ∧
    (regAt addr).frozen = true

/-- Every event on the schedule is one the port can show: a transaction, the core's turn, or the reset line. -/
def State.portOnly (s : State) : Prop :=
  ∀ e ∈ s.schedule, (∃ tx, e = .bus tx) ∨ e = .core ∨ ∃ low, e = .rst low

/-- What an error leaves (R205, R213): ERR set, the first code kept, nothing else changed. -/
def State.withError (s : State) (code : BitVec 4) : State :=
  { s with err := true, errcode := if s.err = true then s.errcode else code }

/-- The source's in-place mixer on four slots of a window (41_quarter_round.md, R120, R123): every line reads what the lines
before it left, through the slots themselves. -/
def inPlaceQuarter (w : Block) (a b c d : Fin 16) : Block :=
  let w := w.set a (w[a] + w[b])
  let w := w.set d (w[d] ^^^ w[a])
  let w := w.set d (w[d].rotateLeft 16)
  let w := w.set c (w[c] + w[d])
  let w := w.set b (w[b] ^^^ w[c])
  let w := w.set b (w[b].rotateLeft 12)
  let w := w.set a (w[a] + w[b])
  let w := w.set d (w[d] ^^^ w[a])
  let w := w.set d (w[d].rotateLeft 8)
  let w := w.set c (w[c] + w[d])
  let w := w.set b (w[b] ^^^ w[c])
  w.set b (w[b].rotateLeft 7)

/-- The index groups of the column round (R141). -/
def columnGroups : List (Fin 16 × Fin 16 × Fin 16 × Fin 16) :=
  [(0, 4, 8, 12), (1, 5, 9, 13), (2, 6, 10, 14), (3, 7, 11, 15)]

/-- The index groups of the diagonal round (R142). -/
def diagonalGroups : List (Fin 16 × Fin 16 × Fin 16 × Fin 16) :=
  [(0, 5, 10, 15), (1, 6, 11, 12), (2, 7, 8, 13), (3, 4, 9, 14)]

/-- Quarter rounds on the groups, in the list's order. -/
def quarterRounds (gs : List (Fin 16 × Fin 16 × Fin 16 × Fin 16)) (w : Block) : Block :=
  gs.foldl (fun w g => qrAt w g.1 g.2.1 g.2.2.1 g.2.2.2) w

end Sys2Proof.Machine
end

