-- ==== Sys2Proof/Certificates/Slice0/Obligations.lean ====
section
/-! DEFINITION. The statements for the provers. Each docstring names the rule of spec/ it states, and the instructions whose
completion it says. Addresses are word indices, offset / 4 (R52). -/

open Sys2Proof Sys2Proof.Machine

/-! ### Encoding (30_encoding.md) -/

/-- Words written out from R80, R81 and R89 decode to the instructions they stand for. -/
def Obligations.SpecWordsDecode : Prop :=
  decodeCmd 0x000C8402 = .qr 0 4 8 12 0 ∧ decodeCmd 0x000FA502 = .qr 0 5 10 15 0 ∧
  decodeCmd 0x00001232 = .qr 3 2 1 0 0 ∧ decodeCmd 0xFFFFFFF0 = .nop 0xFFFFFFF ∧
  decodeCmd 0x00000001 = .load 0 ∧ decodeCmd 0x00000003 = .dround 0 ∧ decodeCmd 0x00abcde4 = .block 0x00abcde ∧
  decodeCmd 0x00000005 = .next 0 ∧ decodeCmd 0x00000006 = .crypt 0 ∧ decodeCmd 0x00000007 = .reserved7 0 ∧
  decodeCmd 0x00000009 = .reserved8F 0x9 0 ∧ decodeBus 0x8100000004 = .hostWrite 1 0x4 ∧
  decodeBus 0x0200000000 = .hostRead 2 0

/-- Decoding an encoded well-formed instruction gives it back, whatever its operands and ignored bits (R80 to R85). -/
def Obligations.DecodeOfEncode : Prop :=
  ∀ i : Instr, i.wellFormed = true → decode (encodeBytes i) = .ok i

/-- Whatever decodes is the encoding of a well-formed instruction: each word has one meaning (R80 to R87). -/
def Obligations.EncodeOfDecode : Prop :=
  ∀ (bytes : List Byte) (i : Instr), decode bytes = .ok i → i.wellFormed = true ∧ encodeBytes i = bytes

/-- The opcode field alone selects the row (R83, R87). -/
def Obligations.OpcodeFieldSelectsRow : Prop :=
  ∀ v : Word,
    (v &&& 0x0000000F = 0 → ∃ x, decodeCmd v = .nop x) ∧
    (v &&& 0x0000000F = 1 → ∃ x, decodeCmd v = .load x) ∧
    (v &&& 0x0000000F = 2 → ∃ a b c d x, decodeCmd v = .qr a b c d x) ∧
    (v &&& 0x0000000F = 3 → ∃ x, decodeCmd v = .dround x) ∧
    (v &&& 0x0000000F = 4 → ∃ x, decodeCmd v = .block x) ∧
    (v &&& 0x0000000F = 5 → ∃ x, decodeCmd v = .next x) ∧
    (v &&& 0x0000000F = 6 → ∃ x, decodeCmd v = .crypt x) ∧
    (v &&& 0x0000000F = 7 → ∃ x, decodeCmd v = .reserved7 x) ∧
    (8 ≤ (v &&& 0x0000000F).toNat → ∃ op x, op = (v &&& 0x0000000F).setWidth 4 ∧ decodeCmd v = .reserved8F op x)

/-- R85: two command words that differ only in ignored bits do the same, in every state: the same next state, but for the
index fields of PEND, which mean something only for QR (R37). -/
def Obligations.IgnoredBitsDoNotMatter : Prop :=
  ∀ (v w : Word) (s : State), v &&& 0x0000000F = w &&& 0x0000000F →
    (v &&& 0x0000000F = 2 → v &&& 0x000FFFFF = w &&& 0x000FFFFF) →
    ∃ t u, exec (decodeCmd v) s = .next t ∧ exec (decodeCmd w) s = .next u ∧
      { t with pend := none } = { u with pend := none } ∧ t.pend.map Pend.op = u.pend.map Pend.op ∧
      (v &&& 0x0000000F = 2 → t.pend = u.pend)

/-! ### The step (00_scope.md R14) -/

/-- A transaction next on the schedule: the step is exec of the instruction it decodes to, unless it is a `CTRL` write to a
core that is not busy, whose instruction is the command word (the next statement). -/
def Obligations.StepRunsTransaction : Prop :=
  ∀ (s : State) (tx : BitVec 40) (rest : List Event), s.schedule = .bus tx :: rest →
    (∀ v, decodeBus tx = .hostWrite 1 v → s.pend ≠ none) →
    step s = exec (decodeBus tx) { s with schedule := rest }

/-- A `CTRL` write to a core that is not busy: the step is exec of the instruction its data decodes to (R21, R69). -/
def Obligations.StepRunsCommandWord : Prop :=
  ∀ (s : State) (v : Word) (rest : List Event), s.schedule = .bus (busWord true 1 v) :: rest → s.pend = none →
    step s = exec (decodeCmd v) { s with schedule := rest }

/-- The core's turn with a pending command (its turn is on the schedule, or the schedule is empty): the step is exec of the
pending command (R103). -/
def Obligations.StepRunsPendingCommand : Prop :=
  ∀ (s : State) (p : Pend), s.pend = some p → (s.schedule = [] ∨ ∃ rest, s.schedule = .core :: rest) →
    step s = exec p.instr { s with schedule := s.schedule.tail }

/-- An idle core's turn changes nothing (R225, R241). -/
def Obligations.IdleCoreWaits : Prop :=
  ∀ s : State, s.pend = none → (s.schedule = [] ∨ ∃ rest, s.schedule = .core :: rest) →
    step s = .next { s with schedule := s.schedule.tail }

/-- An instruction placed by `withFetchWord` is what the very next step runs; log 8 says how. -/
def Obligations.PlacedWordRunsNext : Prop :=
  (∀ (s : State) (w : Nat), step (s.withFetchWord 32 w) = exec (decodeCmd (BitVec.ofNat 32 w)) { s with pend := none }) ∧
  (∀ (s : State) (w : Nat), step (s.withFetchWord 40 w) = exec (decodeBus (BitVec.ofNat 40 w)) s)

/-- Presenting a command word by its own arm is writing it to `CTRL`, for a core that is not busy (R21, R55, R100). -/
def Obligations.CommandArmIsCtrlWrite : Prop :=
  ∀ (s : State) (v : Word), s.pend = none → exec (decodeCmd v) s = exec (.hostWrite 1 v) s

/-- No instruction faults or is refused, in any state: every transaction and every command is total (R80, R103, R207). -/
def Obligations.ExecAlwaysAnswersNext : Prop :=
  ∀ (i : Instr) (s : State), ∃ t, exec i s = .next t

/-! ### Reading the registers (10_state.md, 20_memory.md) -/

/-- R20: `ID` reads its constant in every state (busy, or in reset), and no write changes anything. -/
def Obligations.IdIsHardwired : Prop :=
  ∀ (s : State) (x v : Word),
    exec (.hostRead 0 x) s = .next { s with busRdata := 0x43433230 } ∧ exec (.hostWrite 0 v) s = .next s

/-- R53 and R54, the whole table: what HOST_READ returns at every offset, out of reset. Completion of HOST_READ. -/
def Obligations.HostReadReturns : Prop :=
  ∀ (s : State) (addr : BitVec 7) (x : Word), s.rstLow = false →
    let off := 4 * addr.toNat
    let window (base : Nat) (b : Block) : Word := b.toList.getD ((off - base) / 4) 0
    let drawn : State := { s with busRdata := Config.busreadDraw s.draws, draws := s.draws + 1 }
    exec (.hostRead addr x) s = .next (
      if off = 0x000 then { s with busRdata := 0x43433230 }
      else if off = 0x004 then { s with busRdata := 0 }
      else if off = 0x008 then
        { s with busRdata := (s.errcode.setWidth 32 <<< 4) ||| (if s.err = true then 4 else 0) |||
            (if s.done = true then 2 else 0) ||| (if s.pend = none then 0 else 1) }
      else if off = 0x00C then { s with busRdata := s.irqen.setWidth 32 }
      else if off = 0x010 then { s with busRdata := s.len.setWidth 32 }
      else if 0x040 ≤ off ∧ off ≤ 0x07C then { s with busRdata := window 0x040 s.initState }
      else if 0x080 ≤ off ∧ off ≤ 0x0BC then
        (if s.pend = none then { s with busRdata := window 0x080 s.work } else drawn)
      else if 0x0C0 ≤ off ∧ off ≤ 0x0FC then
        (if s.pend = none then { s with busRdata := window 0x0C0 s.ks } else drawn)
      else if 0x100 ≤ off ∧ off ≤ 0x13C then { s with busRdata := window 0x100 s.din }
      else if 0x140 ≤ off ∧ off ≤ 0x17C then
        (if s.pend = none then { s with busRdata := window 0x140 s.dout } else drawn)
      else { s with busRdata := 0 })

/-- R58: a read changes no state; only the model's record of the value read and its count of draws move. -/
def Obligations.ReadsHaveNoSideEffect : Prop :=
  ∀ (s : State) (addr : BitVec 7) (x : Word), ∃ t, exec (.hostRead addr x) s = .next t ∧
    { t with busRdata := s.busRdata, draws := s.draws } = s

/-- R140: the initial state is constants, key, counter, nonce, in that order, and offset 0x040 + 4i reads word i of it, busy or
not. -/
def Obligations.InitialStateOrder : Prop :=
  ∀ s : State,
    (s.initState[0], s.initState[1], s.initState[2], s.initState[3]) =
      ((0x61707865 : Word), (0x3320646e : Word), (0x79622d32 : Word), (0x6b206574 : Word)) ∧
    (∀ i : Fin 8, s.initState.toList.getD (4 + i.val) 0 = s.key[i]) ∧ s.initState[12] = s.ctr ∧
    (∀ i : Fin 3, s.initState.toList.getD (13 + i.val) 0 = s.nonce[i]) ∧
    (s.rstLow = false → ∀ i : Fin 16, ∃ t, exec (.hostRead (BitVec.ofNat 7 (16 + i.val)) 0) s = .next t ∧
      t.busRdata = s.initState[i])

/-! ### Writing the registers (20_memory.md R55 to R57, R102) -/

/-- R55, the whole table, with R206 for `STATUS`: what HOST_WRITE does at every offset, out of reset; `CTRL` is the
operation of CtrlWriteValidates. The result is `s` with the named fields changed, so it is the frame too.
Completion of HOST_WRITE. -/
def Obligations.HostWriteDoes : Prop :=
  ∀ (s : State) (addr : BitVec 7) (v : Word), s.rstLow = false →
    let off := 4 * addr.toNat
    exec (.hostWrite addr v) s = .next (
      if off = 0x008 then
        { s with
          done := if v.getLsbD 1 = true then false else s.done
          err := if v.getLsbD 2 = true then false else s.err
          errcode := if v.getLsbD 2 = true then 0 else s.errcode }
      else if off = 0x00C then { s with irqen := v.extractLsb' 0 2 }
      else if off = 0x004 ∨ off = 0x010 ∨ (0x050 ≤ off ∧ off ≤ 0x0BC) ∨ (0x100 ≤ off ∧ off ≤ 0x13C) then
        (if s.pend ≠ none then s.withError 4
        else if off = 0x004 then s.command v
        else if off = 0x010 then { s with len := v.extractLsb' 0 7 }
        else if off ≤ 0x06C then { s with key := s.key.setIfInBounds ((off - 0x050) / 4) v }
        else if off = 0x070 then { s with ctr := v }
        else if off ≤ 0x07C then { s with nonce := s.nonce.setIfInBounds ((off - 0x074) / 4) v }
        else if off ≤ 0x0BC then { s with work := s.work.setIfInBounds ((off - 0x080) / 4) v }
        else { s with din := s.din.setIfInBounds ((off - 0x100) / 4) v })
      else s)

/-- R56: reserved offsets read 0, and a write to one has no effect and raises no error, busy or not. -/
def Obligations.ReservedOffsets : Prop :=
  ∀ (s : State) (addr : BitVec 7) (x v : Word), s.rstLow = false →
    (0x014 ≤ 4 * addr.toNat ∧ 4 * addr.toNat ≤ 0x03C) ∨ 0x180 ≤ 4 * addr.toNat →
    exec (.hostRead addr x) s = .next { s with busRdata := 0 } ∧ exec (.hostWrite addr v) s = .next s

/-- R57: writes to `ID`, `CONST`, `KS` and `DOUT` have no effect, busy or not, and the read-only and reserved bits of a
`STATUS`, `IRQEN` or `LEN` write do not matter. -/
def Obligations.ReadOnlyWritesIgnored : Prop :=
  (∀ (s : State) (addr : BitVec 7) (v : Word),
    addr.toNat = 0 ∨ (16 ≤ addr.toNat ∧ addr.toNat ≤ 19) ∨ (48 ≤ addr.toNat ∧ addr.toNat ≤ 63) ∨
      (80 ≤ addr.toNat ∧ addr.toNat ≤ 95) →
    exec (.hostWrite addr v) s = .next s) ∧
  (∀ (s : State) (v w : Word), v.getLsbD 1 = w.getLsbD 1 → v.getLsbD 2 = w.getLsbD 2 →
    exec (.hostWrite 2 v) s = exec (.hostWrite 2 w) s) ∧
  (∀ (s : State) (v w : Word), v.extractLsb' 0 2 = w.extractLsb' 0 2 →
    exec (.hostWrite 3 v) s = exec (.hostWrite 3 w) s) ∧
  (∀ (s : State) (v w : Word), v.extractLsb' 0 7 = w.extractLsb' 0 7 →
    exec (.hostWrite 4 v) s = exec (.hostWrite 4 w) s)

/-- R204: a write to a frozen offset of a busy core raises BUSY_WRITE (code 4) and has no other effect. -/
def Obligations.BusyWriteRefused : Prop :=
  ∀ (s : State) (addr : BitVec 7) (v : Word), s.rstLow = false → s.pend ≠ none →
    4 * addr.toNat = 0x004 ∨ 4 * addr.toNat = 0x010 ∨ (0x050 ≤ 4 * addr.toNat ∧ 4 * addr.toNat ≤ 0x07C) ∨
      (0x080 ≤ 4 * addr.toNat ∧ 4 * addr.toNat ≤ 0x0BC) ∨ (0x100 ≤ 4 * addr.toNat ∧ 4 * addr.toNat ≤ 0x13C) →
    exec (.hostWrite addr v) s = .next (s.withError 4)

/-- R206: a `STATUS` write is never refused, busy or not; bit 1 clears DONE, bit 2 clears ERR and ERRCODE, and nothing else
changes. -/
def Obligations.StatusWriteClears : Prop :=
  ∀ (s : State) (v : Word), s.rstLow = false →
    exec (.hostWrite 2 v) s = .next
      { s with
        done := s.done && !(v.getLsbD 1)
        err := s.err && !(v.getLsbD 2)
        errcode := if v.getLsbD 2 = true then 0 else s.errcode }

/-- Of all instructions only HOST_WRITE changes `KEY`, `NONCE`, `DIN`, `LEN` or `IRQEN`, and none changes `rst_n` or the
schedule (R28, R30, R32, R35): the frame every command shares. -/
def Obligations.OnlyHostWritesParameters : Prop :=
  ∀ (i : Instr) (s t : State), exec i s = .next t →
    t.rstLow = s.rstLow ∧ t.schedule = s.schedule ∧
    ((∃ addr v, i = .hostWrite addr v) ∨
      (t.key = s.key ∧ t.nonce = s.nonce ∧ t.din = s.din ∧ t.len = s.len ∧ t.irqen = s.irqen))

/-- Who writes the results (R31, R34, R36): `KS` only BLOCK, NEXT and CRYPT with LEN > 0, `DOUT` only CRYPT with LEN > 0,
`CTR` only a host write or the advance by 1 of NEXT and CRYPT with LEN > 0. -/
def Obligations.ResultWriters : Prop :=
  ∀ (i : Instr) (s t : State), exec i s = .next t →
    (t.ks ≠ s.ks → (∃ x, i = .block x) ∨ (∃ x, i = .next x) ∨ (∃ x, i = .crypt x ∧ s.len ≠ 0)) ∧
    (t.dout ≠ s.dout → ∃ x, i = .crypt x ∧ s.len ≠ 0) ∧
    (t.ctr ≠ s.ctr → (∃ v, i = .hostWrite 28 v) ∨
      (t.ctr = s.ctr + 1 ∧ ((∃ x, i = .next x) ∨ ∃ x, i = .crypt x ∧ s.len ≠ 0)))

/-! ### Acceptance and its errors (40_command_protocol.md, 60_exceptions.md) -/

/-- R100: the whole of `Command(v)`, as a `CTRL` write of a core out of reset and not busy. -/
def Obligations.CtrlWriteValidates : Prop :=
  ∀ (s : State) (v : Word), s.ready →
    let qa := v.extractLsb' 4 4
    let qb := v.extractLsb' 8 4
    let qc := v.extractLsb' 12 4
    let qd := v.extractLsb' 16 4
    exec (.hostWrite 1 v) s = .next (
      match cmdOpOf (v.extractLsb' 0 4) with
      | none => s.withError 1
      | some op =>
        if op = .crypt ∧ 64 < s.len.toNat then s.withError 2
        else if op = .qr ∧ (qa = qb ∨ qa = qc ∨ qa = qd ∨ qb = qc ∨ qb = qd ∨ qc = qd) then s.withError 3
        else { s with pend := some ⟨op, qa, qb, qc, qd⟩, done := false })

/-- R84: a reserved opcode raises ILLEGAL_CMD (code 1), or BUSY_WRITE (code 4) while busy; nothing else changes.
Completion of RESERVED_7 and RESERVED_8_F: their effect is the error. -/
def Obligations.ReservedOpcodesRaise : Prop :=
  ∀ (s : State) (op : BitVec 4) (x : BitVec 28), s.rstLow = false → 8 ≤ op.toNat →
    (s.pend = none → exec (.reserved7 x) s = .next (s.withError 1) ∧ exec (.reserved8F op x) s = .next (s.withError 1)) ∧
    (s.pend ≠ none → exec (.reserved7 x) s = .next (s.withError 4) ∧ exec (.reserved8F op x) s = .next (s.withError 4))

/-- R202: a CRYPT presented while LEN > 64 raises BAD_LEN (code 2) and is not accepted; nothing else changes. -/
def Obligations.BadLenRefused : Prop :=
  ∀ (s : State) (x : BitVec 28), s.ready → 64 < s.len.toNat → exec (.crypt x) s = .next (s.withError 2)

/-- R203: a QR presented with two equal indices raises BAD_QR_INDEX (code 3) and is not accepted; nothing else changes. -/
def Obligations.BadQrIndexRefused : Prop :=
  ∀ (s : State) (a b c d : BitVec 4) (x : BitVec 12), s.ready → ¬[a, b, c, d].Nodup →
    exec (.qr a b c d x) s = .next (s.withError 3)

/-- Every command that passes its check is accepted: PEND holds it, DONE is 0, nothing else changes (R100). -/
def Obligations.CommandsAccepted : Prop :=
  ∀ (s : State) (x : BitVec 28) (a b c d : BitVec 4) (y : BitVec 12), s.ready →
    (∃ p : Pend, p.op = .nop ∧ exec (.nop x) s = .next { s with pend := some p, done := false }) ∧
    (∃ p : Pend, p.op = .load ∧ exec (.load x) s = .next { s with pend := some p, done := false }) ∧
    ([a, b, c, d].Nodup →
      exec (.qr a b c d y) s = .next { s with pend := some ⟨.qr, a, b, c, d⟩, done := false }) ∧
    (∃ p : Pend, p.op = .dround ∧ exec (.dround x) s = .next { s with pend := some p, done := false }) ∧
    (∃ p : Pend, p.op = .block ∧ exec (.block x) s = .next { s with pend := some p, done := false }) ∧
    (∃ p : Pend, p.op = .next ∧ exec (.next x) s = .next { s with pend := some p, done := false }) ∧
    (s.len.toNat ≤ 64 →
      ∃ p : Pend, p.op = .crypt ∧ exec (.crypt x) s = .next { s with pend := some p, done := false })

/-! ### Completion of each command -/

/-- NOP at completion: nothing but the life-cycle flags (R104). Completion of NOP. -/
def Obligations.NopCompletes : Prop :=
  ∀ (s : State) (p : Pend) (x : BitVec 28), s.rstLow = false → s.pend = some p → p.op = .nop →
    exec (.nop x) s = .next { s with pend := none, done := true }

/-- LOAD at completion: `STATE` is the initial state, word by word (R140, R150). Completion of LOAD. -/
def Obligations.LoadCompletes : Prop :=
  ∀ (s : State) (p : Pend) (x : BitVec 28), s.rstLow = false → s.pend = some p → p.op = .load →
    exec (.load x) s = .next
      { s with
        work := #v[0x61707865, 0x3320646e, 0x79622d32, 0x6b206574, s.key[0], s.key[1], s.key[2], s.key[3],
          s.key[4], s.key[5], s.key[6], s.key[7], s.ctr, s.nonce[0], s.nonce[1], s.nonce[2]]
        pend := none
        done := true }

/-- QR at completion: the four words become the mixer's outputs, the other 12 and everything else stay (R125).
Completion of QR, for the indices that are accepted. -/
def Obligations.QrCompletes : Prop :=
  ∀ (s : State) (a b c d : BitVec 4) (x : BitVec 12), s.rstLow = false → s.pend = some ⟨.qr, a, b, c, d⟩ →
    [a, b, c, d].Nodup →
    ∃ w : Block, exec (.qr a b c d x) s = .next { s with work := w, pend := none, done := true } ∧
      (w[windowIndex a], w[windowIndex b], w[windowIndex c], w[windowIndex d]) =
        qround s.work[windowIndex a] s.work[windowIndex b] s.work[windowIndex c] s.work[windowIndex d] ∧
      ∀ q : BitVec 4, q ∉ [a, b, c, d] → w[windowIndex q] = s.work[windowIndex q]

/-- DROUND at completion: the four column calls, then the four diagonal calls, in the rules' order (R141 to R143, R151).
Completion of DROUND. -/
def Obligations.DroundCompletes : Prop :=
  ∀ (s : State) (p : Pend) (x : BitVec 28), s.rstLow = false → s.pend = some p → p.op = .dround →
    exec (.dround x) s = .next
      { s with work := quarterRounds diagonalGroups (quarterRounds columnGroups s.work), pend := none, done := true }

/-- BLOCK at completion: `KS` is the 20 rounds of the initial state plus that state, word by word; `STATE` is zero; `CTR`
stays (R145, R146, R152). Completion of BLOCK. -/
def Obligations.BlockCompletes : Prop :=
  ∀ (s : State) (p : Pend) (x : BitVec 28), s.rstLow = false → s.pend = some p → p.op = .block →
    ∃ b z : Block, exec (.block x) s = .next { s with ks := b, work := z, pend := none, done := true } ∧
      (∀ i : Fin 16, b[i] = (doubleRound^[10] s.initState)[i] + s.initState[i]) ∧ ∀ i : Fin 16, z[i] = 0

/-- NEXT at completion: the block of the old counter, `STATE` zero, and the counter advanced modulo 2^32 with no flag (R146,
R170, R171). Completion of NEXT. -/
def Obligations.NextCompletes : Prop :=
  ∀ (s : State) (p : Pend) (x : BitVec 28), s.rstLow = false → s.pend = some p → p.op = .next →
    ∃ b z : Block,
      exec (.next x) s = .next
        { s with ks := b, work := z, ctr := BitVec.ofNat 32 (s.ctr.toNat + 1), pend := none, done := true } ∧
      (∀ i : Fin 16, b[i] = (doubleRound^[10] s.initState)[i] + s.initState[i]) ∧ ∀ i : Fin 16, z[i] = 0

/-- CRYPT at completion with LEN > 0: as NEXT, and output byte k is the xor below LEN and 0 from there on (R172). Completion
of CRYPT. -/
def Obligations.CryptCompletes : Prop :=
  ∀ (s : State) (p : Pend) (x : BitVec 28), s.rstLow = false → s.pend = some p → p.op = .crypt → s.len ≠ 0 →
    ∃ b z o : Block,
      exec (.crypt x) s = .next
        { s with ks := b, work := z, dout := o, ctr := BitVec.ofNat 32 (s.ctr.toNat + 1), pend := none, done := true } ∧
      (∀ i : Fin 16, b[i] = (doubleRound^[10] s.initState)[i] + s.initState[i]) ∧ (∀ i : Fin 16, z[i] = 0) ∧
      ∀ k : Fin 64, wbyte o k = if k.val < s.len.toNat then wbyte s.din k ^^^ wbyte b k else 0

/-- CRYPT at completion with LEN = 0: nothing but the life-cycle flags (R172, D18). -/
def Obligations.EmptyCryptCompletes : Prop :=
  ∀ (s : State) (p : Pend) (x : BitVec 28), s.rstLow = false → s.pend = some p → p.op = .crypt → s.len = 0 →
    exec (.crypt x) s = .next { s with pend := none, done := true }

/-! ### The cipher's arithmetic (41_quarter_round.md, 42_block_function.md, 43_keystream.md) -/

/-- R120: the mixer is the source's sequence, with rotation as a rotation of 32 bits. -/
def Obligations.QuarterRoundSequence : Prop :=
  ∀ a b c d : Word,
    let a1 := a + b
    let d1 := (d ^^^ a1).rotateLeft 16
    let c1 := c + d1
    let b1 := (b ^^^ c1).rotateLeft 12
    let a2 := a1 + b1
    let d2 := (d1 ^^^ a2).rotateLeft 8
    let c2 := c1 + d2
    let b2 := (b1 ^^^ c2).rotateLeft 7
    qround a b c d = (a2, b2, c2, d2)

/-- R123: on four distinct slots the in-place sequence and the pure form give the same window; on aliased slots they
differ somewhere. -/
def Obligations.InPlaceAndPureAgree : Prop :=
  (∀ (w : Block) (i j k l : Fin 16), [i, j, k, l].Nodup → qrAt w i j k l = inPlaceQuarter w i j k l) ∧
  ∃ (w : Block) (i j k l : Fin 16), qrAt w i j k l ≠ inPlaceQuarter w i j k l

/-- R144: the result of a round does not depend on the order of its four quarter rounds. -/
def Obligations.RoundOrderDoesNotMatter : Prop :=
  (∀ (gs : List (Fin 16 × Fin 16 × Fin 16 × Fin 16)) (w : Block), gs.Perm columnGroups →
    quarterRounds gs w = columnRound w) ∧
  (∀ (gs : List (Fin 16 × Fin 16 × Fin 16 × Fin 16)) (w : Block), gs.Perm diagonalGroups →
    quarterRounds gs w = diagonalRound w)

/-- The eight QR commands of a double round do what one DROUND does, from any idle core (95_test_vectors.md W2; R125, R143,
R151). -/
def Obligations.EightQrsAreOneDround : Prop :=
  ∀ s : State, s.ready →
    runEvents [cmdQr 0 4 8 12, .core, cmdQr 1 5 9 13, .core, cmdQr 2 6 10 14, .core, cmdQr 3 7 11 15, .core,
      cmdQr 0 5 10 15, .core, cmdQr 1 6 11 12, .core, cmdQr 2 7 8 13, .core, cmdQr 3 4 9 14, .core] s =
      runEvents [cmd .dround, .core] s

/-- LOAD, ten DROUNDs, and the feed-forward give the keystream BLOCK gives, from any idle core (R145, R146, R151; P5). -/
def Obligations.TenDroundsAndFeedForwardAreBlock : Prop :=
  ∀ s : State, s.ready → ∀ i : Fin 16,
    (runEvents [cmd .block, .core] s).ks[i] =
      (runEvents ([cmd .load, .core] ++ (List.replicate 10 [cmd .dround, .core]).flatten) s).work[i] + s.initState[i]

/-- n NEXT commands from counter c leave the counter at c + n and the last block in `KS`, the block of counter c + n - 1 (R170,
R171). -/
def Obligations.RepeatedNextAdvances : Prop :=
  ∀ (s : State) (n : Nat), s.ready →
    let t := runEvents (List.replicate (n + 1) [cmd .next, .core]).flatten s
    t.ctr = BitVec.ofNat 32 (s.ctr.toNat + (n + 1)) ∧
      t.ks = blockFn (State.initState { s with ctr := BitVec.ofNat 32 (s.ctr.toNat + n) }) ∧ t.ready

/-- R174: lane k of a chunk's output depends only on lane k of `DIN`, lane k of `KS`, and whether k < LEN. -/
def Obligations.ByteLanesAreIndependent : Prop :=
  ∀ (n n' : Nat) (din din' ks ks' : Block) (k : Fin 64), (k.val < n ↔ k.val < n') →
    wbyte din k = wbyte din' k → wbyte ks k = wbyte ks' k →
    wbyte (chunkOut n din ks) k = wbyte (chunkOut n' din' ks') k

/-- What CRYPT produces is a function of `KEY`, `NONCE`, `CTR`, `LEN` and `DIN` alone (R177): two cores that agree on these,
whatever else they hold, produce the same output, block and counter. -/
def Obligations.CryptDependsOnParametersAlone : Prop :=
  ∀ (s u : State) (x : BitVec 28), s.ready → u.ready → s.key = u.key → s.nonce = u.nonce → s.ctr = u.ctr →
    s.len = u.len → s.din = u.din → 0 < s.len.toNat → s.len.toNat ≤ 64 →
    ∃ s1 s2 u1 u2, exec (.crypt x) s = .next s1 ∧ exec (.crypt x) s1 = .next s2 ∧
      exec (.crypt x) u = .next u1 ∧ exec (.crypt x) u1 = .next u2 ∧
      s2.dout = u2.dout ∧ s2.ks = u2.ks ∧ s2.ctr = u2.ctr ∧ s2.work = u2.work

/-- One chunk, twice (R176): with the counter written back and the output copied to `DIN`, a second CRYPT gives the first
input's bytes below LEN. -/
def Obligations.CryptTwiceRestoresChunk : Prop :=
  ∀ (s : State) (x : BitVec 28), s.ready → 0 < s.len.toNat → s.len.toNat ≤ 64 →
    ∃ s1 s2 s3 s4, exec (.crypt x) s = .next s1 ∧ exec (.crypt x) s1 = .next s2 ∧
      exec (.crypt x) { s2 with ctr := s.ctr, din := s2.dout } = .next s3 ∧ exec (.crypt x) s3 = .next s4 ∧
      ∀ k : Fin 64, k.val < s.len.toNat → wbyte s4.dout k = wbyte s.din k

/-! ### Whole messages (43_keystream.md R175 to R177) -/

/-- R175: the host's loop of CRYPT commands puts out `M[i] ^ KSB(counter + i div 64)[i mod 64]`, and leaves `CTR` at
counter + ceil(L / 64) modulo 2^32, however often `wait` polls and whatever fills the last chunk. The model's choices: the
procedure is run with one number of polls and one filler for every chunk (log 13), on the model's schedule (log 2). -/
def Obligations.EncryptIsXorWithKeystream : Prop :=
  ∀ (polls : Nat) (filler : Nat → Byte) (key : Vector Word 8) (nonce : Vector Word 3) (counter : Word) (m : List Byte)
    (s : State), s.ready →
    let r := encrypt polls filler key nonce counter m s
    r.1 = m.mapIdx (fun i b =>
      b ^^^ keystreamByte key nonce (counter + BitVec.ofNat 32 (i / 64)) ⟨i % 64, Nat.mod_lt _ (by decide)⟩) ∧
    r.2.ctr = counter + BitVec.ofNat 32 ((m.length + 63) / 64)

/-- R176: encrypting twice with the same key, nonce and counter gives the message back, on any idle cores. The model's
choices: each run has one number of polls and one filler for every chunk (log 13), on the model's schedule (log 2). -/
def Obligations.EncryptTwiceRestoresMessage : Prop :=
  ∀ (polls polls' : Nat) (filler filler' : Nat → Byte) (key : Vector Word 8) (nonce : Vector Word 3) (counter : Word)
    (m : List Byte) (s u : State), s.ready → u.ready →
    (encrypt polls filler key nonce counter (encrypt polls' filler' key nonce counter m s).1 u).1 = m

/-! ### Interrupt, reset, and whole-machine rules (60_exceptions.md, 70_reset_and_hazards.md) -/

/-- `irq` computed from the two words a host reads (R38, R210): it is 1 exactly when the STATUS word, shifted so that DONE and
ERR meet DONE_IE and ERR_IE, shares a bit with IRQEN. Masking drops it and leaves STATUS as it was. -/
def Obligations.IrqFollowsStatusAndIrqen : Prop :=
  (∀ s : State, s.irq = ((s.statusWord >>> 1) &&& s.irqen.setWidth 32 != 0)) ∧
  (∀ s : State, s.rstLow = false → ∃ t, exec (.hostWrite 3 0) s = .next t ∧ t.irq = false ∧ t.statusWord = s.statusWord)

/-- ERR is sticky and ERRCODE keeps the first code (R25, R26): over any step ERR goes from 1 to 0 only by a STATUS write with bit
2, or by reset; and while it stays 1 the code stays. -/
def Obligations.ErrorIsSticky : Prop :=
  ∀ s t : State, step s = .next t → s.err = true →
    (t.err = true ∧ t.errcode = s.errcode) ∨ (∃ rest, s.schedule = .rst true :: rest) ∨
    (∃ v u, fetch s = .run (.hostWrite 2 v) u ∧ v.getLsbD 2 = true)

/-- DONE is set by completion alone (R24): over any step it goes from 0 to 1 only when a pending command stops pending. -/
def Obligations.DoneIsSetByCompletion : Prop :=
  ∀ s t : State, step s = .next t → s.done = false → t.done = true → s.pend ≠ none ∧ t.pend = none

/-- While a command stays pending its operands, its results and it itself stay (R102): over any step from busy to busy the
frozen registers, `KS`, `DOUT` and PEND are unchanged. -/
def Obligations.OperandsFrozenWhileBusy : Prop :=
  ∀ s t : State, step s = .next t → s.pend ≠ none → t.pend ≠ none →
    t.pend = s.pend ∧ t.key = s.key ∧ t.ctr = s.ctr ∧ t.nonce = s.nonce ∧ t.len = s.len ∧ t.work = s.work ∧
      t.din = s.din ∧ t.ks = s.ks ∧ t.dout = s.dout

/-- A host that never writes a frozen register while busy (R250) never meets BUSY_WRITE (R204, R212): no step then brings
code 4. -/
def Obligations.CarefulHostNeverBusyWrite : Prop :=
  ∀ s t : State, step s = .next t → ¬s.writesWhileBusy → t.err = true → t.errcode = 4 →
    s.err = true ∧ s.errcode = 4

/-- A write and a completion at one edge may come in either order (R212): before it, the write is refused; after it, the write
is performed. -/
def Obligations.WriteAndCompletionEitherOrder : Prop :=
  ∀ (s : State) (p : Pend) (v : Word), s.rstLow = false → s.pend = some p → s.err = false →
    ((runEvents [wr 20 v, .core] s).key = s.key ∧ (runEvents [wr 20 v, .core] s).errcode = 4 ∧
      (runEvents [wr 20 v, .core] s).err = true) ∧
    ((runEvents [.core, wr 20 v] s).key = s.key.set 0 v ∧ (runEvents [.core, wr 20 v] s).err = false)

/-- The reset step (R240): `rst_n` driven low gives every register its reset value and abandons a pending command; what the
model keeps beside the spec's registers stays (log 5). Driven high it changes nothing else. -/
def Obligations.ResetStep : Prop :=
  ∀ (s : State) (rest : List Event),
    (s.schedule = .rst true :: rest →
      step s = .next { State.reset with rstLow := true, busRdata := s.busRdata, draws := s.draws, schedule := rest }) ∧
    (s.schedule = .rst false :: rest → step s = .next { s with rstLow := false, schedule := rest })

/-- While `rst_n` is low, writes and commands are ignored and a read returns an unspecified value (R240; but ID: R20, log 5). -/
def Obligations.ResetIgnoresTransactions : Prop :=
  ∀ (s : State) (addr : BitVec 7) (x v : Word), s.rstLow = true →
    exec (.hostWrite addr v) s = .next s ∧ exec (decodeCmd v) s = .next s ∧
    (addr ≠ 0 → exec (.hostRead addr x) s =
      .next { s with busRdata := Config.resetReadDraw s.draws, draws := s.draws + 1 })

/-- What reset leaves (R22 to R38, R240): every register 0 or none, the line idle, the window 0x040 to 0x07C the constants and
then zeros. -/
def Obligations.ResetValues : Prop :=
  State.reset.statusWord = 0 ∧ State.reset.irqen = 0 ∧ State.reset.len = 0 ∧ State.reset.pend = none ∧
  State.reset.irq = false ∧
  State.reset.initState = #v[0x61707865, 0x3320646e, 0x79622d32, 0x6b206574, 0, 0, 0, 0, 0, 0, 0, 0, 0, 0, 0, 0] ∧
  State.reset.work.toList = List.replicate 16 0 ∧ State.reset.ks.toList = List.replicate 16 0 ∧
  State.reset.din.toList = List.replicate 16 0 ∧ State.reset.dout.toList = List.replicate 16 0

/-- The invariant holds at reset (R240, R241). -/
def Obligations.ResetMeetsInvariant : Prop := State.reset.Inv

/-- Every step keeps the invariant (R26, R100, R102, R200, R240): the code is 0 exactly when ERR is 0 and never above 4; a pending
command passed its check and DONE is 0; in reset every register holds its reset value. -/
def Obligations.StepKeepsInvariant : Prop :=
  ∀ s t : State, s.Inv → step s = .next t → t.Inv

/-- Every accepted command completes or is reset (R105): after at most one step for each scheduled event and one more, the core
has been idle, whatever the host does meanwhile. -/
def Obligations.PendingCommandEnds : Prop :=
  ∀ s : State, s.rstLow = false → s.portOnly →
    ∃ k t, k ≤ s.schedule.length + 1 ∧
      (Host.Core.run core k s : Host.Outcome State Fault Refusal) = .next t ∧ t.pend = none

/-- A bridge's access is the transaction of its offset when it is a 32-bit word at a multiple of 4 inside the space, and is
otherwise stopped by name (R12, R50, R62; U4). -/
def Obligations.BridgeAccess : Prop :=
  ∀ (s : State) (we : Bool) (off size : Nat) (v : Word) (rest : List Event),
    s.schedule = .bridge we off size v :: rest →
    (size = 4 → off % 4 = 0 → off < 0x200 →
      step s = step { s with schedule := .bus (busWord we (BitVec.ofNat 7 (off / 4)) v) :: rest }) ∧
    (size = 4 → off % 4 = 0 → 0x200 ≤ off → step s = .fault .offsetOutsideSpace) ∧
    (¬(size = 4 ∧ off % 4 = 0) → step s = .refused .notAWordAccess)
end

