-- ==== Sys2Proof/Laws/Cipher.lean ====
section
/-! SUPPORT. The cipher's arithmetic, read element by element and byte by byte. -/

namespace Sys2Proof.Machine

/-! ### Windows -/

theorem Block.ext_getElem {a b : Block} (h : ∀ i : Fin 16, a[i] = b[i]) : a = b :=
  Vector.ext fun i hi => h ⟨i, hi⟩

/-- A word outside the four slots is left alone (R125). -/
theorem qrAt_getElem_other {w : Block} {i j k l m : Fin 16} (hi : m ≠ i) (hj : m ≠ j) (hk : m ≠ k) (hl : m ≠ l) :
    (qrAt w i j k l)[m] = w[m] := by
  simp only [ne_eq, Fin.ext_iff] at hi hj hk hl
  simp [qrAt, Ne.symm hi, Ne.symm hj, Ne.symm hk, Ne.symm hl]

/-- The four slots, when distinct, hold the mixer's four outputs (R123, R125). -/
theorem qrAt_getElem_slots {w : Block} {i j k l : Fin 16} (hij : i ≠ j) (hik : i ≠ k) (hil : i ≠ l) (hjk : j ≠ k)
    (hjl : j ≠ l) (hkl : k ≠ l) :
    ((qrAt w i j k l)[i], (qrAt w i j k l)[j], (qrAt w i j k l)[k], (qrAt w i j k l)[l]) =
      qround w[i] w[j] w[k] w[l] := by
  simp only [ne_eq, Fin.ext_iff] at hij hik hil hjk hjl hkl
  simp [qrAt, Ne.symm hij, Ne.symm hik, Ne.symm hil, Ne.symm hjk, Ne.symm hjl, Ne.symm hkl]

theorem windowIndex_injective {a b : BitVec 4} : windowIndex a = windowIndex b ↔ a = b := by
  simp [windowIndex, Fin.ext_iff, BitVec.toNat_inj]

/-- The feed-forward, word by word (R146). -/
@[simp] theorem blockFn_getElem (s : Block) (i : Fin 16) : (blockFn s)[i] = (rounds20 s)[i] + s[i] := by
  simp [blockFn]

theorem doubleRounds_succ' (n : Nat) (w : Block) : doubleRounds (n + 1) w = doubleRound (doubleRounds n w) := by
  induction n generalizing w with
  | zero => rfl
  | succ n ih => exact ih (doubleRound w)

/-! ### Bytes -/

theorem wordOf_getLsbD (b0 b1 b2 b3 : Byte) (i : Nat) :
    (wordOf b0 b1 b2 b3).getLsbD i =
      if i < 8 then b0.getLsbD i else if i < 16 then b1.getLsbD (i - 8)
      else if i < 24 then b2.getLsbD (i - 16) else b3.getLsbD (i - 24) := by
  have h : (wordOf b0 b1 b2 b3).getLsbD i = (b3 ++ b2 ++ b1 ++ b0 : BitVec (8 + 8 + 8 + 8)).getLsbD i := rfl
  rw [h]
  simp only [BitVec.getLsbD_append, Nat.sub_sub]
  split_ifs <;> first | rfl | omega

@[simp] theorem byteOf_wordOf_0 (b0 b1 b2 b3 : Byte) : byteOf (wordOf b0 b1 b2 b3) 0 = b0 := by
  apply BitVec.eq_of_getLsbD_eq
  intro i hi
  simp only [byteOf, BitVec.getLsbD_extractLsb', wordOf_getLsbD, hi, decide_true, Bool.true_and]
  split_ifs <;> first | omega | (congr 1; omega)

@[simp] theorem byteOf_wordOf_1 (b0 b1 b2 b3 : Byte) : byteOf (wordOf b0 b1 b2 b3) 1 = b1 := by
  apply BitVec.eq_of_getLsbD_eq
  intro i hi
  simp only [byteOf, BitVec.getLsbD_extractLsb', wordOf_getLsbD, hi, decide_true, Bool.true_and]
  split_ifs <;> first | omega | (congr 1; omega)

@[simp] theorem byteOf_wordOf_2 (b0 b1 b2 b3 : Byte) : byteOf (wordOf b0 b1 b2 b3) 2 = b2 := by
  apply BitVec.eq_of_getLsbD_eq
  intro i hi
  simp only [byteOf, BitVec.getLsbD_extractLsb', wordOf_getLsbD, hi, decide_true, Bool.true_and]
  split_ifs <;> first | omega | (congr 1; omega)

@[simp] theorem byteOf_wordOf_3 (b0 b1 b2 b3 : Byte) : byteOf (wordOf b0 b1 b2 b3) 3 = b3 := by
  apply BitVec.eq_of_getLsbD_eq
  intro i hi
  simp only [byteOf, BitVec.getLsbD_extractLsb', wordOf_getLsbD, hi, decide_true, Bool.true_and]
  split_ifs <;> first | omega | (congr 1; omega)

/-- Byte `k` of a window whose words are packed from the bytes of `f` is byte `k` of `f` (R11). -/
theorem wbyte_ofFn_wordOf (f : Fin 64 → Byte) (k : Fin 64) :
    wbyte (Vector.ofFn fun i : Fin 16 => wordOf (f ⟨4 * i.val, by omega⟩) (f ⟨4 * i.val + 1, by omega⟩)
      (f ⟨4 * i.val + 2, by omega⟩) (f ⟨4 * i.val + 3, by omega⟩)) k = f k := by
  simp only [wbyte, Vector.getElem_ofFn]
  have hk : 4 * (k.val / 4) + k.val % 4 = k.val := Nat.div_add_mod k.val 4
  have h4 : k.val % 4 = 0 ∨ k.val % 4 = 1 ∨ k.val % 4 = 2 ∨ k.val % 4 = 3 := by omega
  rcases h4 with h | h | h | h <;> rw [h] at hk ⊢
  · rw [byteOf_wordOf_0]; exact congrArg f (Fin.ext hk)
  · rw [byteOf_wordOf_1]; exact congrArg f (Fin.ext hk)
  · rw [byteOf_wordOf_2]; exact congrArg f (Fin.ext hk)
  · rw [byteOf_wordOf_3]; exact congrArg f (Fin.ext hk)

/-- Byte `k` of a chunk's output window (R172, R174). -/
@[simp] theorem wbyte_chunkOut (len : Nat) (din ks : Block) (k : Fin 64) :
    wbyte (chunkOut len din ks) k = chunkByte len din ks k :=
  wbyte_ofFn_wordOf (chunkByte len din ks) k

end Sys2Proof.Machine
end

