-- ==== Sys2Proof/Laws/Decode.lean ====
section
/-! SUPPORT. The bits of the two formats, field by field, and what the decoders read from them. -/

namespace Sys2Proof

/-! ### Bits -/

theorem cmdWord_getLsbD (op : BitVec 4) (rest : BitVec 28) (i : Nat) :
    (cmdWord op rest).getLsbD i = if i < 4 then op.getLsbD i else rest.getLsbD (i - 4) :=
  BitVec.getLsbD_append

theorem restOf_getLsbD (a b c d : BitVec 4) (t : BitVec 12) (i : Nat) :
    (restOf a b c d t).getLsbD i =
      if i < 4 then a.getLsbD i else if i < 8 then b.getLsbD (i - 4)
      else if i < 12 then c.getLsbD (i - 8) else if i < 16 then d.getLsbD (i - 12)
      else t.getLsbD (i - 16) := by
  have h : (restOf a b c d t).getLsbD i =
      (t ++ d ++ c ++ b ++ a : BitVec (12 + 4 + 4 + 4 + 4)).getLsbD i := rfl
  rw [h]
  simp only [BitVec.getLsbD_append, Nat.sub_sub]
  split_ifs <;> first | rfl | omega

theorem busWord_getLsbD (we : Bool) (addr : BitVec 7) (x : Word) (i : Nat) :
    (busWord we addr x).getLsbD i =
      if i < 32 then x.getLsbD i else if i < 39 then addr.getLsbD (i - 32)
      else (BitVec.ofBool we).getLsbD (i - 39) := by
  have h : (busWord we addr x).getLsbD i = (BitVec.ofBool we ++ addr ++ x : BitVec (1 + 7 + 32)).getLsbD i := rfl
  rw [h]
  simp only [BitVec.getLsbD_append, Nat.sub_sub]
  split_ifs <;> first | rfl | omega

/-! ### Fields of a command word -/

@[simp] theorem opField_cmdWord (op : BitVec 4) (rest : BitVec 28) : opField (cmdWord op rest) = op := by
  apply BitVec.eq_of_getLsbD_eq
  intro i hi
  simp only [opField, BitVec.getLsbD_extractLsb', cmdWord_getLsbD, Nat.zero_add, hi, if_true,
    decide_true, Bool.true_and]

@[simp] theorem restField_cmdWord (op : BitVec 4) (rest : BitVec 28) : restField (cmdWord op rest) = rest := by
  apply BitVec.eq_of_getLsbD_eq
  intro i hi
  simp only [restField, BitVec.getLsbD_extractLsb', cmdWord_getLsbD, hi, decide_true, Bool.true_and]
  rw [if_neg (by omega), Nat.add_sub_cancel_left]

@[simp] theorem cmdWord_opField_restField (v : Word) : cmdWord (opField v) (restField v) = v := by
  apply BitVec.eq_of_getLsbD_eq
  intro i hi
  simp only [cmdWord_getLsbD, opField, restField, BitVec.getLsbD_extractLsb', Nat.zero_add]
  split_ifs with h
  · simp [h]
  · rw [Nat.add_sub_cancel' (by omega)]
    simp [show i - 4 < 28 by omega]

/-- A 4-bit field of bits 31:4, read from the word. -/
theorem extract_cmdWord (op : BitVec 4) (rest : BitVec 28) (start width : Nat) :
    (cmdWord op rest).extractLsb' (4 + start) width = rest.extractLsb' start width := by
  apply BitVec.eq_of_getLsbD_eq
  intro i hi
  simp only [BitVec.getLsbD_extractLsb', cmdWord_getLsbD]
  rw [if_neg (by omega), show 4 + start + i - 4 = start + i by omega]

@[simp] theorem qaField_cmdWord (op a b c d : BitVec 4) (t : BitVec 12) :
    qaField (cmdWord op (restOf a b c d t)) = a := by
  apply BitVec.eq_of_getLsbD_eq
  intro i hi
  simp only [qaField, BitVec.getLsbD_extractLsb', cmdWord_getLsbD, restOf_getLsbD, hi]
  split_ifs <;> first | omega | simp

@[simp] theorem qbField_cmdWord (op a b c d : BitVec 4) (t : BitVec 12) :
    qbField (cmdWord op (restOf a b c d t)) = b := by
  apply BitVec.eq_of_getLsbD_eq
  intro i hi
  simp only [qbField, BitVec.getLsbD_extractLsb', cmdWord_getLsbD, restOf_getLsbD, hi]
  split_ifs <;> first | omega | (simp; try (congr 1; omega))

@[simp] theorem qcField_cmdWord (op a b c d : BitVec 4) (t : BitVec 12) :
    qcField (cmdWord op (restOf a b c d t)) = c := by
  apply BitVec.eq_of_getLsbD_eq
  intro i hi
  simp only [qcField, BitVec.getLsbD_extractLsb', cmdWord_getLsbD, restOf_getLsbD, hi]
  split_ifs <;> first | omega | (simp; try (congr 1; omega))

@[simp] theorem qdField_cmdWord (op a b c d : BitVec 4) (t : BitVec 12) :
    qdField (cmdWord op (restOf a b c d t)) = d := by
  apply BitVec.eq_of_getLsbD_eq
  intro i hi
  simp only [qdField, BitVec.getLsbD_extractLsb', cmdWord_getLsbD, restOf_getLsbD, hi]
  split_ifs <;> first | omega | (simp; try (congr 1; omega))

@[simp] theorem topField_cmdWord (op a b c d : BitVec 4) (t : BitVec 12) :
    topField (cmdWord op (restOf a b c d t)) = t := by
  apply BitVec.eq_of_getLsbD_eq
  intro i hi
  simp only [topField, BitVec.getLsbD_extractLsb', cmdWord_getLsbD, restOf_getLsbD, hi]
  split_ifs <;> first | omega | (simp; try (congr 1; omega))

/-- Bits 31:4 are the four indices and the reserved bits (R81). -/
@[simp] theorem restOf_fields (v : Word) :
    restOf (qaField v) (qbField v) (qcField v) (qdField v) (topField v) = restField v := by
  apply BitVec.eq_of_getLsbD_eq
  intro i hi
  simp only [restOf_getLsbD, qaField, qbField, qcField, qdField, topField, restField, BitVec.getLsbD_extractLsb', hi,
    decide_true, Bool.true_and]
  split_ifs
  · simp [*]
  · rw [decide_eq_true (by omega : i - 4 < 4), show 8 + (i - 4) = 4 + i by omega]; simp
  · rw [decide_eq_true (by omega : i - 8 < 4), show 12 + (i - 8) = 4 + i by omega]; simp
  · rw [decide_eq_true (by omega : i - 12 < 4), show 16 + (i - 12) = 4 + i by omega]; simp
  · rw [decide_eq_true (by omega : i - 16 < 12), show 20 + (i - 16) = 4 + i by omega]; simp

/-! ### Fields of a transaction -/

theorem busWord_we (we : Bool) (addr : BitVec 7) (x : Word) : (busWord we addr x).getLsbD 39 = we := by
  rw [busWord_getLsbD]
  cases we <;> rfl

@[simp] theorem busWord_addr (we : Bool) (addr : BitVec 7) (x : Word) :
    (busWord we addr x).extractLsb' 32 7 = addr := by
  apply BitVec.eq_of_getLsbD_eq
  intro i hi
  simp only [BitVec.getLsbD_extractLsb', busWord_getLsbD, hi]
  split_ifs <;> first | omega | simp

@[simp] theorem busWord_wdata (we : Bool) (addr : BitVec 7) (x : Word) :
    (busWord we addr x).extractLsb' 0 32 = x := by
  apply BitVec.eq_of_getLsbD_eq
  intro i hi
  simp only [BitVec.getLsbD_extractLsb', busWord_getLsbD, Nat.zero_add, hi]
  simp

theorem busWord_fields (tx : BitVec 40) :
    busWord (tx.getLsbD 39) (tx.extractLsb' 32 7) (tx.extractLsb' 0 32) = tx := by
  apply BitVec.eq_of_getLsbD_eq
  intro i hi
  simp only [busWord_getLsbD, BitVec.getLsbD_extractLsb', Nat.zero_add]
  split_ifs
  · simp [*]
  · rw [decide_eq_true (by omega : i - 32 < 7), show 32 + (i - 32) = i by omega]; simp
  · obtain rfl : i = 39 := by omega
    cases tx.getLsbD 39 <;> rfl

/-! ### What the decoders read -/

@[simp] theorem decodeBus_read (addr : BitVec 7) (x : Word) :
    decodeBus (busWord false addr x) = .hostRead addr x := by
  rw [decodeBus, busWord_we, busWord_addr, busWord_wdata]
  rfl

@[simp] theorem decodeBus_write (addr : BitVec 7) (x : Word) :
    decodeBus (busWord true addr x) = .hostWrite addr x := by
  rw [decodeBus, busWord_we, busWord_addr, busWord_wdata]
  rfl

/-- The command an opcode selects is the one whose opcode it is (R83). -/
theorem cmdOpOf_eq_some {op : BitVec 4} {c : CmdOp} : cmdOpOf op = some c ↔ op = opcodeOf c := by
  revert op
  cases c <;> decide

@[simp] theorem cmdOpOf_opcodeOf (c : CmdOp) : cmdOpOf (opcodeOf c) = some c := cmdOpOf_eq_some.mpr rfl

/-- The reserved opcodes are 0x7 to 0xF (R84). -/
theorem cmdOpOf_eq_none {op : BitVec 4} : cmdOpOf op = none ↔ 7 ≤ op.toNat := by
  revert op
  decide

/-- Bytes and frames are two forms of the same bits. -/
theorem frameOfBytes_cmd (v : Word) : frameOfBytes (frameBytes (.cmd v)) = some (.cmd v) := by
  have h : v.extractLsb' 24 8 ++ v.extractLsb' 16 8 ++ v.extractLsb' 8 8 ++ v.extractLsb' 0 8 = v := by
    apply BitVec.eq_of_getLsbD_eq
    intro i hi
    simp only [BitVec.getLsbD_append, BitVec.getLsbD_extractLsb']
    split_ifs
    · simp [*]
    · rw [decide_eq_true (by omega : i - 8 < 8), show 8 + (i - 8) = i by omega]; simp
    · rw [decide_eq_true (by omega : i - 8 - 8 < 8), show 16 + (i - 8 - 8) = i by omega]; simp
    · rw [decide_eq_true (by omega : i - 8 - 8 - 8 < 8), show 24 + (i - 8 - 8 - 8) = i by omega]; simp
  exact congrArg (fun v => some (Frame.cmd v)) h

theorem frameOfBytes_bus (tx : BitVec 40) : frameOfBytes (frameBytes (.bus tx)) = some (.bus tx) := by
  have h : tx.extractLsb' 32 8 ++ tx.extractLsb' 24 8 ++ tx.extractLsb' 16 8 ++ tx.extractLsb' 8 8 ++
      tx.extractLsb' 0 8 = tx := by
    apply BitVec.eq_of_getLsbD_eq
    intro i hi
    simp only [BitVec.getLsbD_append, BitVec.getLsbD_extractLsb', Nat.sub_sub]
    split_ifs
    · simp [*]
    · rw [decide_eq_true (by omega : i - 8 < 8), show 8 + (i - 8) = i by omega]; simp
    · rw [decide_eq_true (by omega : i - (8 + 8) < 8), show 16 + (i - (8 + 8)) = i by omega]; simp
    · rw [decide_eq_true (by omega : i - (8 + 8 + 8) < 8), show 24 + (i - (8 + 8 + 8)) = i by omega]; simp
    · rw [decide_eq_true (by omega : i - (8 + 8 + 8 + 8) < 8), show 32 + (i - (8 + 8 + 8 + 8)) = i by omega]; simp
  exact congrArg (fun tx => some (Frame.bus tx)) h

/-- Decoding a frame's bytes is decoding the frame. -/
theorem decode_frameBytes (f : Frame) : decode (frameBytes f) = .ok (decodeFrame f) := by
  cases f with
  | bus tx => rw [decode, frameOfBytes_bus]
  | cmd v => rw [decode, frameOfBytes_cmd]

end Sys2Proof
end

