-- ==== Sys2Proof/Laws/State.lean ====
section
/-! SUPPORT. What each update of one field leaves in each field: all by rfl, all for simp. -/

namespace Sys2Proof.Machine

@[simp] theorem State.setDone_done (s : State) (v : Bool) : (s.setDone v).done = v := rfl
@[simp] theorem State.setDone_err (s : State) (v : Bool) : (s.setDone v).err = s.err := rfl
@[simp] theorem State.setDone_errcode (s : State) (v : Bool) : (s.setDone v).errcode = s.errcode := rfl
@[simp] theorem State.setDone_irqen (s : State) (v : Bool) : (s.setDone v).irqen = s.irqen := rfl
@[simp] theorem State.setDone_len (s : State) (v : Bool) : (s.setDone v).len = s.len := rfl
@[simp] theorem State.setDone_key (s : State) (v : Bool) : (s.setDone v).key = s.key := rfl
@[simp] theorem State.setDone_ctr (s : State) (v : Bool) : (s.setDone v).ctr = s.ctr := rfl
@[simp] theorem State.setDone_nonce (s : State) (v : Bool) : (s.setDone v).nonce = s.nonce := rfl
@[simp] theorem State.setDone_work (s : State) (v : Bool) : (s.setDone v).work = s.work := rfl
@[simp] theorem State.setDone_ks (s : State) (v : Bool) : (s.setDone v).ks = s.ks := rfl
@[simp] theorem State.setDone_din (s : State) (v : Bool) : (s.setDone v).din = s.din := rfl
@[simp] theorem State.setDone_dout (s : State) (v : Bool) : (s.setDone v).dout = s.dout := rfl
@[simp] theorem State.setDone_pend (s : State) (v : Bool) : (s.setDone v).pend = s.pend := rfl
@[simp] theorem State.setDone_rstLow (s : State) (v : Bool) : (s.setDone v).rstLow = s.rstLow := rfl
@[simp] theorem State.setDone_busRdata (s : State) (v : Bool) : (s.setDone v).busRdata = s.busRdata := rfl
@[simp] theorem State.setDone_draws (s : State) (v : Bool) : (s.setDone v).draws = s.draws := rfl
@[simp] theorem State.setDone_schedule (s : State) (v : Bool) : (s.setDone v).schedule = s.schedule := rfl

@[simp] theorem State.setErr_done (s : State) (v : Bool) : (s.setErr v).done = s.done := rfl
@[simp] theorem State.setErr_err (s : State) (v : Bool) : (s.setErr v).err = v := rfl
@[simp] theorem State.setErr_errcode (s : State) (v : Bool) : (s.setErr v).errcode = s.errcode := rfl
@[simp] theorem State.setErr_irqen (s : State) (v : Bool) : (s.setErr v).irqen = s.irqen := rfl
@[simp] theorem State.setErr_len (s : State) (v : Bool) : (s.setErr v).len = s.len := rfl
@[simp] theorem State.setErr_key (s : State) (v : Bool) : (s.setErr v).key = s.key := rfl
@[simp] theorem State.setErr_ctr (s : State) (v : Bool) : (s.setErr v).ctr = s.ctr := rfl
@[simp] theorem State.setErr_nonce (s : State) (v : Bool) : (s.setErr v).nonce = s.nonce := rfl
@[simp] theorem State.setErr_work (s : State) (v : Bool) : (s.setErr v).work = s.work := rfl
@[simp] theorem State.setErr_ks (s : State) (v : Bool) : (s.setErr v).ks = s.ks := rfl
@[simp] theorem State.setErr_din (s : State) (v : Bool) : (s.setErr v).din = s.din := rfl
@[simp] theorem State.setErr_dout (s : State) (v : Bool) : (s.setErr v).dout = s.dout := rfl
@[simp] theorem State.setErr_pend (s : State) (v : Bool) : (s.setErr v).pend = s.pend := rfl
@[simp] theorem State.setErr_rstLow (s : State) (v : Bool) : (s.setErr v).rstLow = s.rstLow := rfl
@[simp] theorem State.setErr_busRdata (s : State) (v : Bool) : (s.setErr v).busRdata = s.busRdata := rfl
@[simp] theorem State.setErr_draws (s : State) (v : Bool) : (s.setErr v).draws = s.draws := rfl
@[simp] theorem State.setErr_schedule (s : State) (v : Bool) : (s.setErr v).schedule = s.schedule := rfl

@[simp] theorem State.setErrcode_done (s : State) (v : BitVec 4) : (s.setErrcode v).done = s.done := rfl
@[simp] theorem State.setErrcode_err (s : State) (v : BitVec 4) : (s.setErrcode v).err = s.err := rfl
@[simp] theorem State.setErrcode_errcode (s : State) (v : BitVec 4) : (s.setErrcode v).errcode = v := rfl
@[simp] theorem State.setErrcode_irqen (s : State) (v : BitVec 4) : (s.setErrcode v).irqen = s.irqen := rfl
@[simp] theorem State.setErrcode_len (s : State) (v : BitVec 4) : (s.setErrcode v).len = s.len := rfl
@[simp] theorem State.setErrcode_key (s : State) (v : BitVec 4) : (s.setErrcode v).key = s.key := rfl
@[simp] theorem State.setErrcode_ctr (s : State) (v : BitVec 4) : (s.setErrcode v).ctr = s.ctr := rfl
@[simp] theorem State.setErrcode_nonce (s : State) (v : BitVec 4) : (s.setErrcode v).nonce = s.nonce := rfl
@[simp] theorem State.setErrcode_work (s : State) (v : BitVec 4) : (s.setErrcode v).work = s.work := rfl
@[simp] theorem State.setErrcode_ks (s : State) (v : BitVec 4) : (s.setErrcode v).ks = s.ks := rfl
@[simp] theorem State.setErrcode_din (s : State) (v : BitVec 4) : (s.setErrcode v).din = s.din := rfl
@[simp] theorem State.setErrcode_dout (s : State) (v : BitVec 4) : (s.setErrcode v).dout = s.dout := rfl
@[simp] theorem State.setErrcode_pend (s : State) (v : BitVec 4) : (s.setErrcode v).pend = s.pend := rfl
@[simp] theorem State.setErrcode_rstLow (s : State) (v : BitVec 4) : (s.setErrcode v).rstLow = s.rstLow := rfl
@[simp] theorem State.setErrcode_busRdata (s : State) (v : BitVec 4) : (s.setErrcode v).busRdata = s.busRdata := rfl
@[simp] theorem State.setErrcode_draws (s : State) (v : BitVec 4) : (s.setErrcode v).draws = s.draws := rfl
@[simp] theorem State.setErrcode_schedule (s : State) (v : BitVec 4) : (s.setErrcode v).schedule = s.schedule := rfl

@[simp] theorem State.setIrqen_done (s : State) (v : BitVec 2) : (s.setIrqen v).done = s.done := rfl
@[simp] theorem State.setIrqen_err (s : State) (v : BitVec 2) : (s.setIrqen v).err = s.err := rfl
@[simp] theorem State.setIrqen_errcode (s : State) (v : BitVec 2) : (s.setIrqen v).errcode = s.errcode := rfl
@[simp] theorem State.setIrqen_irqen (s : State) (v : BitVec 2) : (s.setIrqen v).irqen = v := rfl
@[simp] theorem State.setIrqen_len (s : State) (v : BitVec 2) : (s.setIrqen v).len = s.len := rfl
@[simp] theorem State.setIrqen_key (s : State) (v : BitVec 2) : (s.setIrqen v).key = s.key := rfl
@[simp] theorem State.setIrqen_ctr (s : State) (v : BitVec 2) : (s.setIrqen v).ctr = s.ctr := rfl
@[simp] theorem State.setIrqen_nonce (s : State) (v : BitVec 2) : (s.setIrqen v).nonce = s.nonce := rfl
@[simp] theorem State.setIrqen_work (s : State) (v : BitVec 2) : (s.setIrqen v).work = s.work := rfl
@[simp] theorem State.setIrqen_ks (s : State) (v : BitVec 2) : (s.setIrqen v).ks = s.ks := rfl
@[simp] theorem State.setIrqen_din (s : State) (v : BitVec 2) : (s.setIrqen v).din = s.din := rfl
@[simp] theorem State.setIrqen_dout (s : State) (v : BitVec 2) : (s.setIrqen v).dout = s.dout := rfl
@[simp] theorem State.setIrqen_pend (s : State) (v : BitVec 2) : (s.setIrqen v).pend = s.pend := rfl
@[simp] theorem State.setIrqen_rstLow (s : State) (v : BitVec 2) : (s.setIrqen v).rstLow = s.rstLow := rfl
@[simp] theorem State.setIrqen_busRdata (s : State) (v : BitVec 2) : (s.setIrqen v).busRdata = s.busRdata := rfl
@[simp] theorem State.setIrqen_draws (s : State) (v : BitVec 2) : (s.setIrqen v).draws = s.draws := rfl
@[simp] theorem State.setIrqen_schedule (s : State) (v : BitVec 2) : (s.setIrqen v).schedule = s.schedule := rfl

@[simp] theorem State.setLen_done (s : State) (v : BitVec 7) : (s.setLen v).done = s.done := rfl
@[simp] theorem State.setLen_err (s : State) (v : BitVec 7) : (s.setLen v).err = s.err := rfl
@[simp] theorem State.setLen_errcode (s : State) (v : BitVec 7) : (s.setLen v).errcode = s.errcode := rfl
@[simp] theorem State.setLen_irqen (s : State) (v : BitVec 7) : (s.setLen v).irqen = s.irqen := rfl
@[simp] theorem State.setLen_len (s : State) (v : BitVec 7) : (s.setLen v).len = v := rfl
@[simp] theorem State.setLen_key (s : State) (v : BitVec 7) : (s.setLen v).key = s.key := rfl
@[simp] theorem State.setLen_ctr (s : State) (v : BitVec 7) : (s.setLen v).ctr = s.ctr := rfl
@[simp] theorem State.setLen_nonce (s : State) (v : BitVec 7) : (s.setLen v).nonce = s.nonce := rfl
@[simp] theorem State.setLen_work (s : State) (v : BitVec 7) : (s.setLen v).work = s.work := rfl
@[simp] theorem State.setLen_ks (s : State) (v : BitVec 7) : (s.setLen v).ks = s.ks := rfl
@[simp] theorem State.setLen_din (s : State) (v : BitVec 7) : (s.setLen v).din = s.din := rfl
@[simp] theorem State.setLen_dout (s : State) (v : BitVec 7) : (s.setLen v).dout = s.dout := rfl
@[simp] theorem State.setLen_pend (s : State) (v : BitVec 7) : (s.setLen v).pend = s.pend := rfl
@[simp] theorem State.setLen_rstLow (s : State) (v : BitVec 7) : (s.setLen v).rstLow = s.rstLow := rfl
@[simp] theorem State.setLen_busRdata (s : State) (v : BitVec 7) : (s.setLen v).busRdata = s.busRdata := rfl
@[simp] theorem State.setLen_draws (s : State) (v : BitVec 7) : (s.setLen v).draws = s.draws := rfl
@[simp] theorem State.setLen_schedule (s : State) (v : BitVec 7) : (s.setLen v).schedule = s.schedule := rfl

@[simp] theorem State.setKey_done (s : State) (v : Vector Word 8) : (s.setKey v).done = s.done := rfl
@[simp] theorem State.setKey_err (s : State) (v : Vector Word 8) : (s.setKey v).err = s.err := rfl
@[simp] theorem State.setKey_errcode (s : State) (v : Vector Word 8) : (s.setKey v).errcode = s.errcode := rfl
@[simp] theorem State.setKey_irqen (s : State) (v : Vector Word 8) : (s.setKey v).irqen = s.irqen := rfl
@[simp] theorem State.setKey_len (s : State) (v : Vector Word 8) : (s.setKey v).len = s.len := rfl
@[simp] theorem State.setKey_key (s : State) (v : Vector Word 8) : (s.setKey v).key = v := rfl
@[simp] theorem State.setKey_ctr (s : State) (v : Vector Word 8) : (s.setKey v).ctr = s.ctr := rfl
@[simp] theorem State.setKey_nonce (s : State) (v : Vector Word 8) : (s.setKey v).nonce = s.nonce := rfl
@[simp] theorem State.setKey_work (s : State) (v : Vector Word 8) : (s.setKey v).work = s.work := rfl
@[simp] theorem State.setKey_ks (s : State) (v : Vector Word 8) : (s.setKey v).ks = s.ks := rfl
@[simp] theorem State.setKey_din (s : State) (v : Vector Word 8) : (s.setKey v).din = s.din := rfl
@[simp] theorem State.setKey_dout (s : State) (v : Vector Word 8) : (s.setKey v).dout = s.dout := rfl
@[simp] theorem State.setKey_pend (s : State) (v : Vector Word 8) : (s.setKey v).pend = s.pend := rfl
@[simp] theorem State.setKey_rstLow (s : State) (v : Vector Word 8) : (s.setKey v).rstLow = s.rstLow := rfl
@[simp] theorem State.setKey_busRdata (s : State) (v : Vector Word 8) : (s.setKey v).busRdata = s.busRdata := rfl
@[simp] theorem State.setKey_draws (s : State) (v : Vector Word 8) : (s.setKey v).draws = s.draws := rfl
@[simp] theorem State.setKey_schedule (s : State) (v : Vector Word 8) : (s.setKey v).schedule = s.schedule := rfl

@[simp] theorem State.setCtr_done (s : State) (v : Word) : (s.setCtr v).done = s.done := rfl
@[simp] theorem State.setCtr_err (s : State) (v : Word) : (s.setCtr v).err = s.err := rfl
@[simp] theorem State.setCtr_errcode (s : State) (v : Word) : (s.setCtr v).errcode = s.errcode := rfl
@[simp] theorem State.setCtr_irqen (s : State) (v : Word) : (s.setCtr v).irqen = s.irqen := rfl
@[simp] theorem State.setCtr_len (s : State) (v : Word) : (s.setCtr v).len = s.len := rfl
@[simp] theorem State.setCtr_key (s : State) (v : Word) : (s.setCtr v).key = s.key := rfl
@[simp] theorem State.setCtr_ctr (s : State) (v : Word) : (s.setCtr v).ctr = v := rfl
@[simp] theorem State.setCtr_nonce (s : State) (v : Word) : (s.setCtr v).nonce = s.nonce := rfl
@[simp] theorem State.setCtr_work (s : State) (v : Word) : (s.setCtr v).work = s.work := rfl
@[simp] theorem State.setCtr_ks (s : State) (v : Word) : (s.setCtr v).ks = s.ks := rfl
@[simp] theorem State.setCtr_din (s : State) (v : Word) : (s.setCtr v).din = s.din := rfl
@[simp] theorem State.setCtr_dout (s : State) (v : Word) : (s.setCtr v).dout = s.dout := rfl
@[simp] theorem State.setCtr_pend (s : State) (v : Word) : (s.setCtr v).pend = s.pend := rfl
@[simp] theorem State.setCtr_rstLow (s : State) (v : Word) : (s.setCtr v).rstLow = s.rstLow := rfl
@[simp] theorem State.setCtr_busRdata (s : State) (v : Word) : (s.setCtr v).busRdata = s.busRdata := rfl
@[simp] theorem State.setCtr_draws (s : State) (v : Word) : (s.setCtr v).draws = s.draws := rfl
@[simp] theorem State.setCtr_schedule (s : State) (v : Word) : (s.setCtr v).schedule = s.schedule := rfl

@[simp] theorem State.setNonce_done (s : State) (v : Vector Word 3) : (s.setNonce v).done = s.done := rfl
@[simp] theorem State.setNonce_err (s : State) (v : Vector Word 3) : (s.setNonce v).err = s.err := rfl
@[simp] theorem State.setNonce_errcode (s : State) (v : Vector Word 3) : (s.setNonce v).errcode = s.errcode := rfl
@[simp] theorem State.setNonce_irqen (s : State) (v : Vector Word 3) : (s.setNonce v).irqen = s.irqen := rfl
@[simp] theorem State.setNonce_len (s : State) (v : Vector Word 3) : (s.setNonce v).len = s.len := rfl
@[simp] theorem State.setNonce_key (s : State) (v : Vector Word 3) : (s.setNonce v).key = s.key := rfl
@[simp] theorem State.setNonce_ctr (s : State) (v : Vector Word 3) : (s.setNonce v).ctr = s.ctr := rfl
@[simp] theorem State.setNonce_nonce (s : State) (v : Vector Word 3) : (s.setNonce v).nonce = v := rfl
@[simp] theorem State.setNonce_work (s : State) (v : Vector Word 3) : (s.setNonce v).work = s.work := rfl
@[simp] theorem State.setNonce_ks (s : State) (v : Vector Word 3) : (s.setNonce v).ks = s.ks := rfl
@[simp] theorem State.setNonce_din (s : State) (v : Vector Word 3) : (s.setNonce v).din = s.din := rfl
@[simp] theorem State.setNonce_dout (s : State) (v : Vector Word 3) : (s.setNonce v).dout = s.dout := rfl
@[simp] theorem State.setNonce_pend (s : State) (v : Vector Word 3) : (s.setNonce v).pend = s.pend := rfl
@[simp] theorem State.setNonce_rstLow (s : State) (v : Vector Word 3) : (s.setNonce v).rstLow = s.rstLow := rfl
@[simp] theorem State.setNonce_busRdata (s : State) (v : Vector Word 3) : (s.setNonce v).busRdata = s.busRdata := rfl
@[simp] theorem State.setNonce_draws (s : State) (v : Vector Word 3) : (s.setNonce v).draws = s.draws := rfl
@[simp] theorem State.setNonce_schedule (s : State) (v : Vector Word 3) : (s.setNonce v).schedule = s.schedule := rfl

@[simp] theorem State.setWork_done (s : State) (v : Block) : (s.setWork v).done = s.done := rfl
@[simp] theorem State.setWork_err (s : State) (v : Block) : (s.setWork v).err = s.err := rfl
@[simp] theorem State.setWork_errcode (s : State) (v : Block) : (s.setWork v).errcode = s.errcode := rfl
@[simp] theorem State.setWork_irqen (s : State) (v : Block) : (s.setWork v).irqen = s.irqen := rfl
@[simp] theorem State.setWork_len (s : State) (v : Block) : (s.setWork v).len = s.len := rfl
@[simp] theorem State.setWork_key (s : State) (v : Block) : (s.setWork v).key = s.key := rfl
@[simp] theorem State.setWork_ctr (s : State) (v : Block) : (s.setWork v).ctr = s.ctr := rfl
@[simp] theorem State.setWork_nonce (s : State) (v : Block) : (s.setWork v).nonce = s.nonce := rfl
@[simp] theorem State.setWork_work (s : State) (v : Block) : (s.setWork v).work = v := rfl
@[simp] theorem State.setWork_ks (s : State) (v : Block) : (s.setWork v).ks = s.ks := rfl
@[simp] theorem State.setWork_din (s : State) (v : Block) : (s.setWork v).din = s.din := rfl
@[simp] theorem State.setWork_dout (s : State) (v : Block) : (s.setWork v).dout = s.dout := rfl
@[simp] theorem State.setWork_pend (s : State) (v : Block) : (s.setWork v).pend = s.pend := rfl
@[simp] theorem State.setWork_rstLow (s : State) (v : Block) : (s.setWork v).rstLow = s.rstLow := rfl
@[simp] theorem State.setWork_busRdata (s : State) (v : Block) : (s.setWork v).busRdata = s.busRdata := rfl
@[simp] theorem State.setWork_draws (s : State) (v : Block) : (s.setWork v).draws = s.draws := rfl
@[simp] theorem State.setWork_schedule (s : State) (v : Block) : (s.setWork v).schedule = s.schedule := rfl

@[simp] theorem State.setKs_done (s : State) (v : Block) : (s.setKs v).done = s.done := rfl
@[simp] theorem State.setKs_err (s : State) (v : Block) : (s.setKs v).err = s.err := rfl
@[simp] theorem State.setKs_errcode (s : State) (v : Block) : (s.setKs v).errcode = s.errcode := rfl
@[simp] theorem State.setKs_irqen (s : State) (v : Block) : (s.setKs v).irqen = s.irqen := rfl
@[simp] theorem State.setKs_len (s : State) (v : Block) : (s.setKs v).len = s.len := rfl
@[simp] theorem State.setKs_key (s : State) (v : Block) : (s.setKs v).key = s.key := rfl
@[simp] theorem State.setKs_ctr (s : State) (v : Block) : (s.setKs v).ctr = s.ctr := rfl
@[simp] theorem State.setKs_nonce (s : State) (v : Block) : (s.setKs v).nonce = s.nonce := rfl
@[simp] theorem State.setKs_work (s : State) (v : Block) : (s.setKs v).work = s.work := rfl
@[simp] theorem State.setKs_ks (s : State) (v : Block) : (s.setKs v).ks = v := rfl
@[simp] theorem State.setKs_din (s : State) (v : Block) : (s.setKs v).din = s.din := rfl
@[simp] theorem State.setKs_dout (s : State) (v : Block) : (s.setKs v).dout = s.dout := rfl
@[simp] theorem State.setKs_pend (s : State) (v : Block) : (s.setKs v).pend = s.pend := rfl
@[simp] theorem State.setKs_rstLow (s : State) (v : Block) : (s.setKs v).rstLow = s.rstLow := rfl
@[simp] theorem State.setKs_busRdata (s : State) (v : Block) : (s.setKs v).busRdata = s.busRdata := rfl
@[simp] theorem State.setKs_draws (s : State) (v : Block) : (s.setKs v).draws = s.draws := rfl
@[simp] theorem State.setKs_schedule (s : State) (v : Block) : (s.setKs v).schedule = s.schedule := rfl

@[simp] theorem State.setDin_done (s : State) (v : Block) : (s.setDin v).done = s.done := rfl
@[simp] theorem State.setDin_err (s : State) (v : Block) : (s.setDin v).err = s.err := rfl
@[simp] theorem State.setDin_errcode (s : State) (v : Block) : (s.setDin v).errcode = s.errcode := rfl
@[simp] theorem State.setDin_irqen (s : State) (v : Block) : (s.setDin v).irqen = s.irqen := rfl
@[simp] theorem State.setDin_len (s : State) (v : Block) : (s.setDin v).len = s.len := rfl
@[simp] theorem State.setDin_key (s : State) (v : Block) : (s.setDin v).key = s.key := rfl
@[simp] theorem State.setDin_ctr (s : State) (v : Block) : (s.setDin v).ctr = s.ctr := rfl
@[simp] theorem State.setDin_nonce (s : State) (v : Block) : (s.setDin v).nonce = s.nonce := rfl
@[simp] theorem State.setDin_work (s : State) (v : Block) : (s.setDin v).work = s.work := rfl
@[simp] theorem State.setDin_ks (s : State) (v : Block) : (s.setDin v).ks = s.ks := rfl
@[simp] theorem State.setDin_din (s : State) (v : Block) : (s.setDin v).din = v := rfl
@[simp] theorem State.setDin_dout (s : State) (v : Block) : (s.setDin v).dout = s.dout := rfl
@[simp] theorem State.setDin_pend (s : State) (v : Block) : (s.setDin v).pend = s.pend := rfl
@[simp] theorem State.setDin_rstLow (s : State) (v : Block) : (s.setDin v).rstLow = s.rstLow := rfl
@[simp] theorem State.setDin_busRdata (s : State) (v : Block) : (s.setDin v).busRdata = s.busRdata := rfl
@[simp] theorem State.setDin_draws (s : State) (v : Block) : (s.setDin v).draws = s.draws := rfl
@[simp] theorem State.setDin_schedule (s : State) (v : Block) : (s.setDin v).schedule = s.schedule := rfl

@[simp] theorem State.setDout_done (s : State) (v : Block) : (s.setDout v).done = s.done := rfl
@[simp] theorem State.setDout_err (s : State) (v : Block) : (s.setDout v).err = s.err := rfl
@[simp] theorem State.setDout_errcode (s : State) (v : Block) : (s.setDout v).errcode = s.errcode := rfl
@[simp] theorem State.setDout_irqen (s : State) (v : Block) : (s.setDout v).irqen = s.irqen := rfl
@[simp] theorem State.setDout_len (s : State) (v : Block) : (s.setDout v).len = s.len := rfl
@[simp] theorem State.setDout_key (s : State) (v : Block) : (s.setDout v).key = s.key := rfl
@[simp] theorem State.setDout_ctr (s : State) (v : Block) : (s.setDout v).ctr = s.ctr := rfl
@[simp] theorem State.setDout_nonce (s : State) (v : Block) : (s.setDout v).nonce = s.nonce := rfl
@[simp] theorem State.setDout_work (s : State) (v : Block) : (s.setDout v).work = s.work := rfl
@[simp] theorem State.setDout_ks (s : State) (v : Block) : (s.setDout v).ks = s.ks := rfl
@[simp] theorem State.setDout_din (s : State) (v : Block) : (s.setDout v).din = s.din := rfl
@[simp] theorem State.setDout_dout (s : State) (v : Block) : (s.setDout v).dout = v := rfl
@[simp] theorem State.setDout_pend (s : State) (v : Block) : (s.setDout v).pend = s.pend := rfl
@[simp] theorem State.setDout_rstLow (s : State) (v : Block) : (s.setDout v).rstLow = s.rstLow := rfl
@[simp] theorem State.setDout_busRdata (s : State) (v : Block) : (s.setDout v).busRdata = s.busRdata := rfl
@[simp] theorem State.setDout_draws (s : State) (v : Block) : (s.setDout v).draws = s.draws := rfl
@[simp] theorem State.setDout_schedule (s : State) (v : Block) : (s.setDout v).schedule = s.schedule := rfl

@[simp] theorem State.setPend_done (s : State) (v : Option Pend) : (s.setPend v).done = s.done := rfl
@[simp] theorem State.setPend_err (s : State) (v : Option Pend) : (s.setPend v).err = s.err := rfl
@[simp] theorem State.setPend_errcode (s : State) (v : Option Pend) : (s.setPend v).errcode = s.errcode := rfl
@[simp] theorem State.setPend_irqen (s : State) (v : Option Pend) : (s.setPend v).irqen = s.irqen := rfl
@[simp] theorem State.setPend_len (s : State) (v : Option Pend) : (s.setPend v).len = s.len := rfl
@[simp] theorem State.setPend_key (s : State) (v : Option Pend) : (s.setPend v).key = s.key := rfl
@[simp] theorem State.setPend_ctr (s : State) (v : Option Pend) : (s.setPend v).ctr = s.ctr := rfl
@[simp] theorem State.setPend_nonce (s : State) (v : Option Pend) : (s.setPend v).nonce = s.nonce := rfl
@[simp] theorem State.setPend_work (s : State) (v : Option Pend) : (s.setPend v).work = s.work := rfl
@[simp] theorem State.setPend_ks (s : State) (v : Option Pend) : (s.setPend v).ks = s.ks := rfl
@[simp] theorem State.setPend_din (s : State) (v : Option Pend) : (s.setPend v).din = s.din := rfl
@[simp] theorem State.setPend_dout (s : State) (v : Option Pend) : (s.setPend v).dout = s.dout := rfl
@[simp] theorem State.setPend_pend (s : State) (v : Option Pend) : (s.setPend v).pend = v := rfl
@[simp] theorem State.setPend_rstLow (s : State) (v : Option Pend) : (s.setPend v).rstLow = s.rstLow := rfl
@[simp] theorem State.setPend_busRdata (s : State) (v : Option Pend) : (s.setPend v).busRdata = s.busRdata := rfl
@[simp] theorem State.setPend_draws (s : State) (v : Option Pend) : (s.setPend v).draws = s.draws := rfl
@[simp] theorem State.setPend_schedule (s : State) (v : Option Pend) : (s.setPend v).schedule = s.schedule := rfl

@[simp] theorem State.setRstLow_done (s : State) (v : Bool) : (s.setRstLow v).done = s.done := rfl
@[simp] theorem State.setRstLow_err (s : State) (v : Bool) : (s.setRstLow v).err = s.err := rfl
@[simp] theorem State.setRstLow_errcode (s : State) (v : Bool) : (s.setRstLow v).errcode = s.errcode := rfl
@[simp] theorem State.setRstLow_irqen (s : State) (v : Bool) : (s.setRstLow v).irqen = s.irqen := rfl
@[simp] theorem State.setRstLow_len (s : State) (v : Bool) : (s.setRstLow v).len = s.len := rfl
@[simp] theorem State.setRstLow_key (s : State) (v : Bool) : (s.setRstLow v).key = s.key := rfl
@[simp] theorem State.setRstLow_ctr (s : State) (v : Bool) : (s.setRstLow v).ctr = s.ctr := rfl
@[simp] theorem State.setRstLow_nonce (s : State) (v : Bool) : (s.setRstLow v).nonce = s.nonce := rfl
@[simp] theorem State.setRstLow_work (s : State) (v : Bool) : (s.setRstLow v).work = s.work := rfl
@[simp] theorem State.setRstLow_ks (s : State) (v : Bool) : (s.setRstLow v).ks = s.ks := rfl
@[simp] theorem State.setRstLow_din (s : State) (v : Bool) : (s.setRstLow v).din = s.din := rfl
@[simp] theorem State.setRstLow_dout (s : State) (v : Bool) : (s.setRstLow v).dout = s.dout := rfl
@[simp] theorem State.setRstLow_pend (s : State) (v : Bool) : (s.setRstLow v).pend = s.pend := rfl
@[simp] theorem State.setRstLow_rstLow (s : State) (v : Bool) : (s.setRstLow v).rstLow = v := rfl
@[simp] theorem State.setRstLow_busRdata (s : State) (v : Bool) : (s.setRstLow v).busRdata = s.busRdata := rfl
@[simp] theorem State.setRstLow_draws (s : State) (v : Bool) : (s.setRstLow v).draws = s.draws := rfl
@[simp] theorem State.setRstLow_schedule (s : State) (v : Bool) : (s.setRstLow v).schedule = s.schedule := rfl

@[simp] theorem State.setSchedule_done (s : State) (v : List Event) : (s.setSchedule v).done = s.done := rfl
@[simp] theorem State.setSchedule_err (s : State) (v : List Event) : (s.setSchedule v).err = s.err := rfl
@[simp] theorem State.setSchedule_errcode (s : State) (v : List Event) : (s.setSchedule v).errcode = s.errcode := rfl
@[simp] theorem State.setSchedule_irqen (s : State) (v : List Event) : (s.setSchedule v).irqen = s.irqen := rfl
@[simp] theorem State.setSchedule_len (s : State) (v : List Event) : (s.setSchedule v).len = s.len := rfl
@[simp] theorem State.setSchedule_key (s : State) (v : List Event) : (s.setSchedule v).key = s.key := rfl
@[simp] theorem State.setSchedule_ctr (s : State) (v : List Event) : (s.setSchedule v).ctr = s.ctr := rfl
@[simp] theorem State.setSchedule_nonce (s : State) (v : List Event) : (s.setSchedule v).nonce = s.nonce := rfl
@[simp] theorem State.setSchedule_work (s : State) (v : List Event) : (s.setSchedule v).work = s.work := rfl
@[simp] theorem State.setSchedule_ks (s : State) (v : List Event) : (s.setSchedule v).ks = s.ks := rfl
@[simp] theorem State.setSchedule_din (s : State) (v : List Event) : (s.setSchedule v).din = s.din := rfl
@[simp] theorem State.setSchedule_dout (s : State) (v : List Event) : (s.setSchedule v).dout = s.dout := rfl
@[simp] theorem State.setSchedule_pend (s : State) (v : List Event) : (s.setSchedule v).pend = s.pend := rfl
@[simp] theorem State.setSchedule_rstLow (s : State) (v : List Event) : (s.setSchedule v).rstLow = s.rstLow := rfl
@[simp] theorem State.setSchedule_busRdata (s : State) (v : List Event) : (s.setSchedule v).busRdata = s.busRdata := rfl
@[simp] theorem State.setSchedule_draws (s : State) (v : List Event) : (s.setSchedule v).draws = s.draws := rfl
@[simp] theorem State.setSchedule_schedule (s : State) (v : List Event) : (s.setSchedule v).schedule = v := rfl

@[simp] theorem State.setRead_done (s : State) (v : Word) (n : Nat) : (s.setRead v n).done = s.done := rfl
@[simp] theorem State.setRead_err (s : State) (v : Word) (n : Nat) : (s.setRead v n).err = s.err := rfl
@[simp] theorem State.setRead_errcode (s : State) (v : Word) (n : Nat) : (s.setRead v n).errcode = s.errcode := rfl
@[simp] theorem State.setRead_irqen (s : State) (v : Word) (n : Nat) : (s.setRead v n).irqen = s.irqen := rfl
@[simp] theorem State.setRead_len (s : State) (v : Word) (n : Nat) : (s.setRead v n).len = s.len := rfl
@[simp] theorem State.setRead_key (s : State) (v : Word) (n : Nat) : (s.setRead v n).key = s.key := rfl
@[simp] theorem State.setRead_ctr (s : State) (v : Word) (n : Nat) : (s.setRead v n).ctr = s.ctr := rfl
@[simp] theorem State.setRead_nonce (s : State) (v : Word) (n : Nat) : (s.setRead v n).nonce = s.nonce := rfl
@[simp] theorem State.setRead_work (s : State) (v : Word) (n : Nat) : (s.setRead v n).work = s.work := rfl
@[simp] theorem State.setRead_ks (s : State) (v : Word) (n : Nat) : (s.setRead v n).ks = s.ks := rfl
@[simp] theorem State.setRead_din (s : State) (v : Word) (n : Nat) : (s.setRead v n).din = s.din := rfl
@[simp] theorem State.setRead_dout (s : State) (v : Word) (n : Nat) : (s.setRead v n).dout = s.dout := rfl
@[simp] theorem State.setRead_pend (s : State) (v : Word) (n : Nat) : (s.setRead v n).pend = s.pend := rfl
@[simp] theorem State.setRead_rstLow (s : State) (v : Word) (n : Nat) : (s.setRead v n).rstLow = s.rstLow := rfl
@[simp] theorem State.setRead_busRdata (s : State) (v : Word) (n : Nat) : (s.setRead v n).busRdata = v := rfl
@[simp] theorem State.setRead_draws (s : State) (v : Word) (n : Nat) : (s.setRead v n).draws = s.draws + n := rfl
@[simp] theorem State.setRead_schedule (s : State) (v : Word) (n : Nat) : (s.setRead v n).schedule = s.schedule := rfl

/-! The views follow the fields they are computed from. -/

@[simp] theorem State.setDone_busy (s : State) (v : Bool) : (s.setDone v).busy = s.busy := rfl
@[simp] theorem State.setErr_busy (s : State) (v : Bool) : (s.setErr v).busy = s.busy := rfl
@[simp] theorem State.setErrcode_busy (s : State) (v : BitVec 4) : (s.setErrcode v).busy = s.busy := rfl
@[simp] theorem State.setIrqen_busy (s : State) (v : BitVec 2) : (s.setIrqen v).busy = s.busy := rfl
@[simp] theorem State.setLen_busy (s : State) (v : BitVec 7) : (s.setLen v).busy = s.busy := rfl
@[simp] theorem State.setKey_busy (s : State) (v : Vector Word 8) : (s.setKey v).busy = s.busy := rfl
@[simp] theorem State.setCtr_busy (s : State) (v : Word) : (s.setCtr v).busy = s.busy := rfl
@[simp] theorem State.setNonce_busy (s : State) (v : Vector Word 3) : (s.setNonce v).busy = s.busy := rfl
@[simp] theorem State.setWork_busy (s : State) (v : Block) : (s.setWork v).busy = s.busy := rfl
@[simp] theorem State.setKs_busy (s : State) (v : Block) : (s.setKs v).busy = s.busy := rfl
@[simp] theorem State.setDin_busy (s : State) (v : Block) : (s.setDin v).busy = s.busy := rfl
@[simp] theorem State.setDout_busy (s : State) (v : Block) : (s.setDout v).busy = s.busy := rfl
@[simp] theorem State.setRstLow_busy (s : State) (v : Bool) : (s.setRstLow v).busy = s.busy := rfl
@[simp] theorem State.setSchedule_busy (s : State) (v : List Event) : (s.setSchedule v).busy = s.busy := rfl
@[simp] theorem State.setPend_busy (s : State) (v : Option Pend) : (s.setPend v).busy = v.isSome := rfl
@[simp] theorem State.setRead_busy (s : State) (v : Word) (n : Nat) : (s.setRead v n).busy = s.busy := rfl

@[simp] theorem State.setDone_initState (s : State) (v : Bool) : (s.setDone v).initState = s.initState := rfl
@[simp] theorem State.setErr_initState (s : State) (v : Bool) : (s.setErr v).initState = s.initState := rfl
@[simp] theorem State.setErrcode_initState (s : State) (v : BitVec 4) : (s.setErrcode v).initState = s.initState := rfl
@[simp] theorem State.setIrqen_initState (s : State) (v : BitVec 2) : (s.setIrqen v).initState = s.initState := rfl
@[simp] theorem State.setLen_initState (s : State) (v : BitVec 7) : (s.setLen v).initState = s.initState := rfl
@[simp] theorem State.setWork_initState (s : State) (v : Block) : (s.setWork v).initState = s.initState := rfl
@[simp] theorem State.setKs_initState (s : State) (v : Block) : (s.setKs v).initState = s.initState := rfl
@[simp] theorem State.setDin_initState (s : State) (v : Block) : (s.setDin v).initState = s.initState := rfl
@[simp] theorem State.setDout_initState (s : State) (v : Block) : (s.setDout v).initState = s.initState := rfl
@[simp] theorem State.setPend_initState (s : State) (v : Option Pend) : (s.setPend v).initState = s.initState := rfl
@[simp] theorem State.setRstLow_initState (s : State) (v : Bool) : (s.setRstLow v).initState = s.initState := rfl
@[simp] theorem State.setSchedule_initState (s : State) (v : List Event) : (s.setSchedule v).initState = s.initState := rfl
@[simp] theorem State.setRead_initState (s : State) (v : Word) (n : Nat) : (s.setRead v n).initState = s.initState := rfl

end Sys2Proof.Machine
end

