-- ==== Sys2Proof/Laws/Ops.lean ====
section
/-! SUPPORT. One lemma for each shared operation: all it can do. `exec_cases` and `step_next_cases` say what exec and step can do; later
proofs cite them instead of unfolding. -/

namespace Sys2Proof.Machine

/-! ### Errors (R205, R206) -/

/-- The error action as one record: ERR set, the first code kept, nothing else (R205, R213). -/
theorem State.raise_eq (s : State) (c : ErrCode) :
    s.raise c = { s with err := true, errcode := if s.err = true then s.errcode else codeOf c } := by
  cases h : s.err <;> simp [State.raise, State.setErr, State.setErrcode, h]

/-- A STATUS write as one record (R206). -/
theorem State.statusWrite_eq (s : State) (v : Word) :
    s.statusWrite v =
      { s with
        done := if v.getLsbD 1 = true then false else s.done
        err := if v.getLsbD 2 = true then false else s.err
        errcode := if v.getLsbD 2 = true then 0 else s.errcode } := by
  unfold State.statusWrite
  generalize v.getLsbD 1 = b1
  generalize v.getLsbD 2 = b2
  cases b1 <;> cases b2 <;> rfl

/-! ### The life cycle (R100, R103) -/

theorem State.accept_eq (s : State) (p : Pend) : s.accept p = { s with pend := some p, done := false } := rfl

theorem State.finish_eq (s : State) : s.finish = { s with pend := none, done := true } := rfl

/-- What a command word does to a core that is not busy (R100): one of three errors, or acceptance with its checks passed. -/
theorem State.command_cases (s : State) (v : Word) :
    (7 ≤ (opField v).toNat ∧ s.command v = s.raise .illegalCmd) ∨
    (opField v = opcodeOf .crypt ∧ 64 < s.len.toNat ∧ s.command v = s.raise .badLen) ∨
    (opField v = opcodeOf .qr ∧ distinct4 (qaField v) (qbField v) (qcField v) (qdField v) = false ∧
      s.command v = s.raise .badQrIndex) ∨
    (∃ op, opField v = opcodeOf op ∧ (op = .crypt → s.len.toNat ≤ 64) ∧
      (op = .qr → distinct4 (qaField v) (qbField v) (qcField v) (qdField v) = true) ∧
      s.command v = s.accept (pendOf op v)) := by
  unfold State.command
  cases h : cmdOpOf (opField v) with
  | none => exact .inl ⟨cmdOpOf_eq_none.mp h, rfl⟩
  | some op =>
    have ho := cmdOpOf_eq_some.mp h
    dsimp only
    split_ifs with h1 h2
    · exact .inr (.inl ⟨h1.1 ▸ ho, h1.2, rfl⟩)
    · exact .inr (.inr (.inl ⟨h2.1 ▸ ho, h2.2, rfl⟩))
    · refine .inr (.inr (.inr ⟨op, ho, fun hc => ?_, fun hq => ?_, rfl⟩))
      · exact Nat.le_of_not_lt fun hl => h1 ⟨hc, hl⟩
      · exact Bool.of_not_eq_false fun hd => h2 ⟨hq, hd⟩

/-! ### Transactions (R53, R55) -/

/-- A read writes only the model's two fields (R58). -/
theorem State.read_eq (s : State) (r : Reg) : ∃ v n, s.read r = s.setRead v n := by
  unfold State.read
  split_ifs
  exacts [⟨_, _, rfl⟩, ⟨_, _, rfl⟩]

theorem State.readInReset_eq (s : State) (r : Reg) : ∃ v n, s.readInReset r = s.setRead v n := by
  unfold State.readInReset
  split_ifs
  exacts [⟨_, _, rfl⟩, ⟨_, _, rfl⟩]

/-- A read of a window that is not drawn returns the register's value (R53). -/
theorem State.read_of_not_drawn {s : State} {r : Reg} (h : s.busy = false ∨ r.drawnWhileBusy = false) :
    s.read r = s.setRead (s.regValue r) 0 := by
  rcases h with h | h <;> simp [State.read, h]

/-- A write to a busy core's frozen register is the error alone (R204). -/
theorem State.write_of_frozen {s : State} {r : Reg} (hb : s.busy = true) (hf : r.frozen = true) (v : Word) :
    s.write r v = s.raise .busyWrite := by
  simp [State.write, hb, hf]

/-- Any other write is the store (R55). -/
theorem State.write_of_open {s : State} {r : Reg} (h : s.busy = false ∨ r.frozen = false) (v : Word) :
    s.write r v = s.store r v := by
  rcases h with h | h <;> simp [State.write, h]

/-! ### A command's turn -/

/-- What the pending command does at completion (R103). -/
def Pend.effect (p : Pend) : State → State :=
  match p.op with
  | .nop => nopEffect
  | .load => loadEffect
  | .qr => qrEffect p.qa p.qb p.qc p.qd
  | .dround => droundEffect
  | .block => blockEffect
  | .next => nextEffect
  | .crypt => cryptEffect

/-! Each command's arm is its turn. -/

theorem exec_nop (x : BitVec 28) (s : State) : exec (.nop x) s = commandTurn .nop (cmdWord 0x0 x) nopEffect s := rfl
theorem exec_load (x : BitVec 28) (s : State) : exec (.load x) s = commandTurn .load (cmdWord 0x1 x) loadEffect s := rfl
theorem exec_dround (x : BitVec 28) (s : State) : exec (.dround x) s = commandTurn .dround (cmdWord 0x3 x) droundEffect s := rfl
theorem exec_block (x : BitVec 28) (s : State) : exec (.block x) s = commandTurn .block (cmdWord 0x4 x) blockEffect s := rfl
theorem exec_next (x : BitVec 28) (s : State) : exec (.next x) s = commandTurn .next (cmdWord 0x5 x) nextEffect s := rfl
theorem exec_crypt (x : BitVec 28) (s : State) : exec (.crypt x) s = commandTurn .crypt (cmdWord 0x6 x) cryptEffect s := rfl
theorem exec_qr (a b c d : BitVec 4) (x : BitVec 12) (s : State) :
    exec (.qr a b c d x) s = commandTurn .qr (cmdWord 0x2 (restOf a b c d x)) (qrEffect a b c d) s := rfl
theorem exec_reserved7 (x : BitVec 28) (s : State) :
    exec (.reserved7 x) s = .next (hostStore .ctrl (cmdWord 0x7 x) s) := rfl
theorem exec_reserved8F (op : BitVec 4) (x : BitVec 28) (s : State) :
    exec (.reserved8F op x) s = .next (hostStore .ctrl (cmdWord op x) s) := rfl
theorem exec_hostRead (a : BitVec 7) (x : Word) (s : State) :
    exec (.hostRead a x) s = .next (if s.rstLow then s.readInReset (regAt a) else s.read (regAt a)) := rfl
theorem exec_hostWrite (a : BitVec 7) (v : Word) (s : State) :
    exec (.hostWrite a v) s = .next (hostStore (regAt a) v s) := rfl

theorem commandTurn_of_holds {op : CmdOp} {v : Word} {effect : State → State} {s : State} (hr : s.rstLow = false)
    (hh : s.holds op v = true) : commandTurn op v effect s = .next (effect s).finish :=
  if_pos ⟨hr, hh⟩

theorem commandTurn_of_not_holds {op : CmdOp} {v : Word} {effect : State → State} {s : State}
    (hh : s.holds op v = false) : commandTurn op v effect s = .next (hostStore .ctrl v s) :=
  if_neg (by simp [hh])

/-- Nothing is held while nothing is pending. -/
theorem State.holds_of_none {s : State} (h : s.pend = none) (op : CmdOp) (v : Word) : s.holds op v = false := by
  simp [State.holds, h]

/-- A pending command holds every word of its opcode, but for QR only the words with its indices (R85). -/
theorem State.holds_of_some {s : State} {p : Pend} (h : s.pend = some p) (v : Word)
    (hq : p.op = .qr → p = pendOf .qr v) : s.holds p.op v = true := by
  unfold State.holds
  rw [h]
  by_cases hop : p.op = .qr
  · rw [hop]; simp [← hq hop, hop]
  · simp [hop]

/-- The core's turn with its pending command: the effect, then the end of `Complete` (R103). -/
theorem exec_pend_instr {s : State} {p : Pend} (hp : s.pend = some p) (hr : s.rstLow = false) :
    exec p.instr s = .next (p.effect s).finish := by
  obtain ⟨op, a, b, c, d⟩ := p
  cases op
  case qr =>
    exact commandTurn_of_holds hr (s.holds_of_some hp _ fun _ => by simp [pendOf])
  case nop => exact commandTurn_of_holds (effect := nopEffect) hr (s.holds_of_some hp _ fun h => by cases h)
  case load => exact commandTurn_of_holds (effect := loadEffect) hr (s.holds_of_some hp _ fun h => by cases h)
  case dround => exact commandTurn_of_holds (effect := droundEffect) hr (s.holds_of_some hp _ fun h => by cases h)
  case block => exact commandTurn_of_holds (effect := blockEffect) hr (s.holds_of_some hp _ fun h => by cases h)
  case next => exact commandTurn_of_holds (effect := nextEffect) hr (s.holds_of_some hp _ fun h => by cases h)
  case crypt => exact commandTurn_of_holds (effect := cryptEffect) hr (s.holds_of_some hp _ fun h => by cases h)

/-- A read's next state differs in the model's two fields alone (R58). -/
theorem exec_hostRead_eq (a : BitVec 7) (x : Word) (s : State) :
    ∃ v n, exec (.hostRead a x) s = .next (s.setRead v n) := by
  by_cases h : s.rstLow = true
  · obtain ⟨v, n, hv⟩ := s.readInReset_eq (regAt a)
    exact ⟨v, n, by rw [exec_hostRead, if_pos h, hv]⟩
  · obtain ⟨v, n, hv⟩ := s.read_eq (regAt a)
    exact ⟨v, n, by rw [exec_hostRead, if_neg h, hv]⟩

/-- What the command turn of `op` can be: the completion of a pending `op`, or the presentation of its word. -/
theorem commandTurn_cases (op : CmdOp) (v : Word) (effect : State → State) (s : State) :
    commandTurn op v effect s = .next (hostStore .ctrl v s) ∨
    (s.rstLow = false ∧ commandTurn op v effect s = .next (effect s).finish ∧
      ∃ p, s.pend = some p ∧ p.op = op ∧ (op = .qr → p = pendOf .qr v)) := by
  unfold commandTurn
  split_ifs with h
  · refine .inr ⟨h.1, rfl, ?_⟩
    have hh := h.2
    unfold State.holds at hh
    split at hh
    · rename_i p hp
      simp only [Bool.and_eq_true, beq_iff_eq, Bool.or_eq_true, bne_iff_ne] at hh
      exact ⟨p, hp, hh.1, fun hq => hq ▸ hh.2.resolve_left fun hn => hn hq⟩
    · cases hh
  · exact .inl rfl

/-- The command an instruction is, none for the others. -/
def cmdOpOfInstr : Instr → Option CmdOp
  | .nop _ => some .nop
  | .load _ => some .load
  | .qr _ _ _ _ _ => some .qr
  | .dround _ => some .dround
  | .block _ => some .block
  | .next _ => some .next
  | .crypt _ => some .crypt
  | .hostRead _ _ => none
  | .hostWrite _ _ => none
  | .reserved7 _ => none
  | .reserved8F _ _ => none

/-- All that an instruction can do: a read, a write, the presentation of a word to `CTRL`, or the completion of the pending
command of its own opcode. -/
theorem exec_cases (i : Instr) (s : State) :
    (∃ a x, i = .hostRead a x) ∨
    (∃ a v, i = .hostWrite a v ∧ exec i s = .next (hostStore (regAt a) v s)) ∨
    (∃ v, exec i s = .next (hostStore .ctrl v s)) ∨
    (s.rstLow = false ∧ ∃ p, s.pend = some p ∧ cmdOpOfInstr i = some p.op ∧ exec i s = .next (p.effect s).finish) := by
  have hplain : ∀ (op : CmdOp) (v : Word) (effect : State → State), exec i s = commandTurn op v effect s →
      cmdOpOfInstr i = some op → op ≠ .qr → (∀ p : Pend, p.op = op → p.effect = effect) →
      (∃ v, exec i s = .next (hostStore .ctrl v s)) ∨
      (s.rstLow = false ∧ ∃ p, s.pend = some p ∧ cmdOpOfInstr i = some p.op ∧ exec i s = .next (p.effect s).finish) := by
    intro op v effect he hi hq hp
    rw [he]
    rcases commandTurn_cases op v effect s with h | ⟨hr, h, p, hs, ho, -⟩
    · exact .inl ⟨v, h⟩
    · exact .inr ⟨hr, p, hs, by rw [hi, ho], by rw [hp p ho, h]⟩
  cases i with
  | hostRead a x => exact .inl ⟨a, x, rfl⟩
  | hostWrite a v => exact .inr (.inl ⟨a, v, rfl, rfl⟩)
  | reserved7 x => exact .inr (.inr (.inl ⟨_, rfl⟩))
  | reserved8F op x => exact .inr (.inr (.inl ⟨_, rfl⟩))
  | nop x => exact .inr (.inr (hplain .nop _ _ (exec_nop x s) rfl (by decide) fun p h => by simp [Pend.effect, h]))
  | load x => exact .inr (.inr (hplain .load _ _ (exec_load x s) rfl (by decide) fun p h => by simp [Pend.effect, h]))
  | dround x => exact .inr (.inr (hplain .dround _ _ (exec_dround x s) rfl (by decide) fun p h => by simp [Pend.effect, h]))
  | block x => exact .inr (.inr (hplain .block _ _ (exec_block x s) rfl (by decide) fun p h => by simp [Pend.effect, h]))
  | next x => exact .inr (.inr (hplain .next _ _ (exec_next x s) rfl (by decide) fun p h => by simp [Pend.effect, h]))
  | crypt x => exact .inr (.inr (hplain .crypt _ _ (exec_crypt x s) rfl (by decide) fun p h => by simp [Pend.effect, h]))
  | qr a b c d x =>
    rw [exec_qr]
    rcases commandTurn_cases .qr (cmdWord 0x2 (restOf a b c d x)) (qrEffect a b c d) s with h | ⟨hr, h, p, hs, ho, hq⟩
    · exact .inr (.inr (.inl ⟨_, h⟩))
    · refine .inr (.inr (.inr ⟨hr, p, hs, by rw [ho]; rfl, ?_⟩))
      rw [h, hq rfl]
      simp [Pend.effect, pendOf]

/-- All that a step's next state can be: an instruction's, the idle core's, or the reset line's. -/
theorem step_next_cases {s t : State} (h : step s = .next t) :
    (∃ i u, fetch s = .run i u ∧ u = s.setSchedule s.schedule.tail ∧ exec i u = .next t) ∨
    (s.pend = none ∧ t = s.setSchedule s.schedule.tail) ∨
    (∃ low rest, s.schedule = .rst low :: rest ∧ t = (s.setSchedule rest).driveReset low) := by
  have hcore : ∀ u : State, u.pend = s.pend → u = s.setSchedule s.schedule.tail → fetch s = coreTurn u →
      (∃ i u, fetch s = .run i u ∧ u = s.setSchedule s.schedule.tail ∧ exec i u = .next t) ∨
      (s.pend = none ∧ t = s.setSchedule s.schedule.tail) ∨
      (∃ low rest, s.schedule = .rst low :: rest ∧ t = (s.setSchedule rest).driveReset low) := by
    intro u hp hu hf
    unfold step at h
    rw [hf] at h
    unfold coreTurn at h hf
    cases hs : u.pend with
    | none =>
      rw [hs] at h
      injection h with h
      exact .inr (.inl ⟨by rw [← hp, hs], by rw [← h, hu]⟩)
    | some p =>
      rw [hs] at h hf
      exact .inl ⟨p.instr, u, hf, hu, h⟩
  cases hs : s.schedule with
  | nil =>
    have hu : s = s.setSchedule s.schedule.tail := by cases s; simp_all [State.setSchedule]
    rw [hs] at hcore hu
    exact hcore s rfl hu (by simp [fetch, hs])
  | cons e rest =>
    rw [hs] at hcore
    cases e with
    | core => exact hcore (s.setSchedule rest) rfl rfl (by simp [fetch, hs])
    | bus tx =>
      have hf : fetch s = .run (txInstr tx s) (s.setSchedule rest) := by simp [fetch, hs]
      unfold step at h
      rw [hf] at h
      exact .inl ⟨_, _, hf, rfl, h⟩
    | rst low =>
      have hf : fetch s = .move ((s.setSchedule rest).driveReset low) := by simp [fetch, hs]
      unfold step at h
      rw [hf] at h
      injection h with h
      exact .inr (.inr ⟨low, rest, rfl, h.symm⟩)
    | powerLoss =>
      have hf : fetch s = .refused .powerOrClockLost := by simp [fetch, hs]
      unfold step at h
      rw [hf] at h
      cases h
    | bridge we off size wdata =>
      have hf : fetch s = bridgeTurn we off size wdata (s.setSchedule rest) := by simp [fetch, hs]
      unfold step at h
      rw [hf] at h
      unfold bridgeTurn at h hf
      split_ifs at h hf
      exact .inl ⟨_, _, hf, rfl, h⟩

end Sys2Proof.Machine
end

