-- ==== Sys2Proof/Laws/Operands.lean ====
section
/-! SUPPORT. The register map (R50), index by index, and which indices a busy core freezes (R204). -/

namespace Sys2Proof.Machine

theorem regAt_const (i : Fin 4) : regAt (BitVec.ofNat 7 (16 + i.val)) = .const i := by revert i; decide
theorem regAt_key (i : Fin 8) : regAt (BitVec.ofNat 7 (20 + i.val)) = .key i := by revert i; decide
theorem regAt_nonce (i : Fin 3) : regAt (BitVec.ofNat 7 (29 + i.val)) = .nonce i := by revert i; decide
theorem regAt_work (i : Fin 16) : regAt (BitVec.ofNat 7 (32 + i.val)) = .work i := by revert i; decide
theorem regAt_ks (i : Fin 16) : regAt (BitVec.ofNat 7 (48 + i.val)) = .ks i := by revert i; decide
theorem regAt_din (i : Fin 16) : regAt (BitVec.ofNat 7 (64 + i.val)) = .din i := by revert i; decide
theorem regAt_dout (i : Fin 16) : regAt (BitVec.ofNat 7 (80 + i.val)) = .dout i := by revert i; decide

/-- The reserved offsets are 0x014 to 0x03C and 0x180 to 0x1FC (R56). -/
theorem regAt_reserved {a : BitVec 7} : regAt a = .reserved ↔ (5 ≤ a.toNat ∧ a.toNat < 16) ∨ 96 ≤ a.toNat := by
  revert a; decide

/-- The offsets R204 lists. -/
theorem regAt_frozen {a : BitVec 7} : (regAt a).frozen = true ↔
    a.toNat = 1 ∨ a.toNat = 4 ∨ (20 ≤ a.toNat ∧ a.toNat < 48) ∨ (64 ≤ a.toNat ∧ a.toNat < 80) := by
  revert a; decide

/-- The windows R54 lists: STATE and KS (0x080 to 0x0FC) and DOUT (0x140 to 0x17C). -/
theorem regAt_drawn {a : BitVec 7} : (regAt a).drawnWhileBusy = true ↔
    (32 ≤ a.toNat ∧ a.toNat < 64) ∨ (80 ≤ a.toNat ∧ a.toNat < 96) := by
  revert a; decide

/-- A store to any register but `CTRL` leaves the pending command, the results, and the model's fields alone. -/
theorem State.store_frame {s : State} {r : Reg} (v : Word) (h : r ≠ .ctrl) :
    (s.store r v).pend = s.pend ∧ (s.store r v).ks = s.ks ∧ (s.store r v).dout = s.dout ∧
      (s.store r v).rstLow = s.rstLow ∧ (s.store r v).busRdata = s.busRdata ∧ (s.store r v).draws = s.draws ∧
      (s.store r v).schedule = s.schedule := by
  cases r with
  | ctrl => exact absurd rfl h
  | status => simp [State.store, State.statusWrite_eq]
  | _ => simp [State.store]

end Sys2Proof.Machine
end

