-- ==== Sys2Proof/Laws/HostPrograms.lean ====
section
/-! SUPPORT. What the host's events do to an idle core: a store, and a command from presentation to completion. -/

namespace Sys2Proof.Machine

theorem State.busy_eq_false {s : State} : s.busy = false ↔ s.pend = none := by
  unfold State.busy
  cases s.pend <;> simp

/-- One event of an idle core's schedule. -/
theorem runEvents_cons_next {e : Event} {s t : State} (rest : List Event) (h : step (s.setSchedule [e]) = .next t) :
    runEvents (e :: rest) s = runEvents rest t := by
  rw [runEvents, h]

/-- `wr` to any register but `CTRL` stores at once in an idle core (R55). -/
theorem runEvents_wr {s : State} (hs : s.ready) {a : BitVec 7} (ha : a ≠ ctrlAddr) (v : Word) (rest : List Event) :
    runEvents (wr a v :: rest) s = runEvents rest ((s.setSchedule []).store (regAt a) v) := by
  apply runEvents_cons_next
  have hf : fetch (s.setSchedule [wr a v]) = .run (.hostWrite a v) (s.setSchedule []) := by
    simp [fetch, wr, txInstr, ha]
    rfl
  have hb : (s.setSchedule []).busy = false := State.busy_eq_false.mpr hs.2
  unfold step
  rw [hf]
  show exec (.hostWrite a v) (s.setSchedule []) = _
  rw [exec_hostWrite, hostStore, if_neg (by simp [hs.1]), State.write_of_open (.inl hb)]

/-- The store of an idle core's register leaves it idle. -/
theorem State.store_ready {s : State} (hs : s.ready) {r : Reg} (hr : r ≠ .ctrl) (v : Word) : (s.store r v).ready := by
  have h := s.store_frame v hr
  exact ⟨by rw [h.2.2.2.1]; exact hs.1, by rw [h.1]; exact hs.2⟩

/-- A presented word that passes its check is accepted (R100). -/
theorem hostStore_ctrl_accepts {s : State} (hs : s.ready) {op : CmdOp} {v : Word} (ho : opField v = opcodeOf op)
    (hl : op = .crypt → s.len.toNat ≤ 64)
    (hq : op = .qr → distinct4 (qaField v) (qbField v) (qcField v) (qdField v) = true) :
    hostStore .ctrl v s = s.accept (pendOf op v) := by
  have hb : s.busy = false := State.busy_eq_false.mpr hs.2
  rw [hostStore, if_neg (by simp [hs.1]), State.write_of_open (.inl hb)]
  show s.command v = _
  unfold State.command
  rw [ho, cmdOpOf_opcodeOf]
  show (if _ then _ else _) = _
  rw [if_neg fun h => absurd (hl h.1) (Nat.not_le.mpr h.2), if_neg fun h => by simp [hq h.1] at h]

/-- The turn of a command word on an idle core presents it, whatever the command (R69). -/
theorem exec_decodeCmd_of_idle {s : State} (hs : s.pend = none) {op : CmdOp} {v : Word} (ho : opField v = opcodeOf op) :
    exec (decodeCmd v) s = .next (hostStore .ctrl v s) := by
  have hv := cmdWord_opField_restField v
  unfold decodeCmd
  rw [ho] at hv ⊢
  cases op
  case qr =>
    show exec (.qr _ _ _ _ _) s = _
    rw [exec_qr, commandTurn_of_not_holds (s.holds_of_none hs _ _), restOf_fields]
    exact congrArg (fun w => Host.Outcome.next (hostStore .ctrl w s)) hv
  case nop =>
    show exec (.nop _) s = _
    rw [exec_nop, commandTurn_of_not_holds (s.holds_of_none hs _ _)]
    exact congrArg (fun w => Host.Outcome.next (hostStore .ctrl w s)) hv
  case load =>
    show exec (.load _) s = _
    rw [exec_load, commandTurn_of_not_holds (s.holds_of_none hs _ _)]
    exact congrArg (fun w => Host.Outcome.next (hostStore .ctrl w s)) hv
  case dround =>
    show exec (.dround _) s = _
    rw [exec_dround, commandTurn_of_not_holds (s.holds_of_none hs _ _)]
    exact congrArg (fun w => Host.Outcome.next (hostStore .ctrl w s)) hv
  case block =>
    show exec (.block _) s = _
    rw [exec_block, commandTurn_of_not_holds (s.holds_of_none hs _ _)]
    exact congrArg (fun w => Host.Outcome.next (hostStore .ctrl w s)) hv
  case next =>
    show exec (.next _) s = _
    rw [exec_next, commandTurn_of_not_holds (s.holds_of_none hs _ _)]
    exact congrArg (fun w => Host.Outcome.next (hostStore .ctrl w s)) hv
  case crypt =>
    show exec (.crypt _) s = _
    rw [exec_crypt, commandTurn_of_not_holds (s.holds_of_none hs _ _)]
    exact congrArg (fun w => Host.Outcome.next (hostStore .ctrl w s)) hv

/-- The core's turn completes what was accepted (R103). -/
theorem runEvents_core {s : State} {p : Pend} (hp : s.pend = some p) (hr : s.rstLow = false) (rest : List Event) :
    runEvents (.core :: rest) s = runEvents rest (p.effect (s.setSchedule [])).finish := by
  apply runEvents_cons_next
  have hf : fetch (s.setSchedule [.core]) = .run p.instr (s.setSchedule []) := by
    show coreTurn ((s.setSchedule [.core]).setSchedule []) = _
    unfold coreTurn
    simp only [State.setSchedule_pend, hp]
    rfl
  unfold step
  rw [hf]
  exact exec_pend_instr hp hr

/-- A command of an idle core, from its `CTRL` write to its completion (R100, R103). -/
theorem runEvents_command {s : State} (hs : s.ready) {op : CmdOp} {v : Word} (ho : opField v = opcodeOf op)
    (hl : op = .crypt → s.len.toNat ≤ 64)
    (hq : op = .qr → distinct4 (qaField v) (qbField v) (qcField v) (qdField v) = true) (rest : List Event) :
    runEvents (wr ctrlAddr v :: .core :: rest) s =
      runEvents rest ((pendOf op v).effect ((s.setSchedule []).accept (pendOf op v))).finish := by
  have hs0 : (s.setSchedule []).ready := hs
  have hf : fetch (s.setSchedule [wr ctrlAddr v]) = .run (decodeCmd v) (s.setSchedule []) := by
    have hp : s.pend = none := hs.2
    simp [fetch, wr, txInstr, hp]
    rfl
  have h1 : step (s.setSchedule [wr ctrlAddr v]) = .next ((s.setSchedule []).accept (pendOf op v)) := by
    unfold step
    rw [hf]
    show exec (decodeCmd v) (s.setSchedule []) = _
    rw [exec_decodeCmd_of_idle hs0.2 ho, hostStore_ctrl_accepts hs0 ho hl hq]
  rw [runEvents_cons_next (Event.core :: rest) h1]
  exact runEvents_core (s := (s.setSchedule []).accept (pendOf op v)) rfl hs0.1 rest

end Sys2Proof.Machine
end

