-- ==== Sys2Proof/Laws/PerInstr.lean ====
section
/-! SUPPORT. One family of statements made per instruction: an instruction's encoding lies in its row of
spec/opcode_table.json (mask and match), so no row's words are taken by another. -/

namespace Sys2Proof.Laws

/-- A row's mask and match, in one of the two formats. -/
inductive Row where
  | bus (mask pattern : BitVec 40)
  | cmd (mask pattern : Word)
deriving DecidableEq, Repr

/-- The table's row of an instruction (spec/opcode_table.json). -/
def rowOf : Instr → Row
  | .hostRead _ _ => .bus 0x8000000000 0x0000000000
  | .hostWrite _ _ => .bus 0x8000000000 0x8000000000
  | .nop _ => .cmd 0x0000000F 0x00000000
  | .load _ => .cmd 0x0000000F 0x00000001
  | .qr _ _ _ _ _ => .cmd 0x0000000F 0x00000002
  | .dround _ => .cmd 0x0000000F 0x00000003
  | .block _ => .cmd 0x0000000F 0x00000004
  | .next _ => .cmd 0x0000000F 0x00000005
  | .crypt _ => .cmd 0x0000000F 0x00000006
  | .reserved7 _ => .cmd 0x0000000F 0x00000007
  | .reserved8F _ _ => .cmd 0x00000008 0x00000008

/-- The frame's bits under the row's mask are the row's match. -/
def InRow : Frame → Row → Prop
  | .bus tx, .bus mask pattern => tx &&& mask = pattern
  | .cmd v, .cmd mask pattern => v &&& mask = pattern
  | _, _ => False

theorem busWord_and (we : Bool) (a : BitVec 7) (x : Word) :
    busWord we a x &&& 0x8000000000 = if we = true then 0x8000000000 else 0 := by
  apply BitVec.eq_of_getLsbD_eq
  intro i hi
  rw [BitVec.getLsbD_and, busWord_getLsbD]
  by_cases h : i = 39
  · subst h; cases we <;> rfl
  · have hm : (0x8000000000 : BitVec 40).getLsbD i = false := by
      have : ∀ j : Fin 40, j.val ≠ 39 → (0x8000000000 : BitVec 40).getLsbD j.val = false := by decide
      exact this ⟨i, hi⟩ h
    rw [hm, Bool.and_false]
    cases we
    · exact BitVec.getLsbD_zero.symm
    · exact hm.symm

theorem cmdWord_and_low (op : BitVec 4) (x : BitVec 28) (m : BitVec 4) :
    cmdWord op x &&& m.setWidth 32 = (op &&& m).setWidth 32 := by
  apply BitVec.eq_of_getLsbD_eq
  intro i hi
  rw [BitVec.getLsbD_and, cmdWord_getLsbD, BitVec.getLsbD_setWidth, BitVec.getLsbD_setWidth, BitVec.getLsbD_and]
  by_cases h : i < 4
  · rw [if_pos h]; simp [hi]
  · simp [BitVec.getLsbD_of_ge _ i (by omega : 4 ≤ i)]

namespace TableRow

/-- A well-formed instruction's encoding lies in its own row of the table. -/
def Statement (i : Instr) : Prop := i.wellFormed = true → InRow (encode i) (rowOf i)

theorem hostRead (a : BitVec 7) (x : BitVec 32) : Statement (.hostRead a x) := fun _ => busWord_and false a x
theorem hostWrite (a : BitVec 7) (v : BitVec 32) : Statement (.hostWrite a v) := fun _ => busWord_and true a v
theorem nop (x : BitVec 28) : Statement (.nop x) := fun _ => cmdWord_and_low 0x0 x 0xF
theorem load (x : BitVec 28) : Statement (.load x) := fun _ => cmdWord_and_low 0x1 x 0xF
theorem qr (a b c d : BitVec 4) (x : BitVec 12) : Statement (.qr a b c d x) :=
  fun _ => cmdWord_and_low 0x2 (restOf a b c d x) 0xF
theorem dround (x : BitVec 28) : Statement (.dround x) := fun _ => cmdWord_and_low 0x3 x 0xF
theorem block (x : BitVec 28) : Statement (.block x) := fun _ => cmdWord_and_low 0x4 x 0xF
theorem next (x : BitVec 28) : Statement (.next x) := fun _ => cmdWord_and_low 0x5 x 0xF
theorem crypt (x : BitVec 28) : Statement (.crypt x) := fun _ => cmdWord_and_low 0x6 x 0xF
theorem reserved7 (x : BitVec 28) : Statement (.reserved7 x) := fun _ => cmdWord_and_low 0x7 x 0xF
theorem reserved8F (op : BitVec 4) (x : BitVec 28) : Statement (.reserved8F op x) := by
  intro h
  have hop : (op &&& 0x8).setWidth 32 = (0x00000008 : Word) := by
    revert h
    show highReserved op = true → _
    revert op
    decide
  exact (cmdWord_and_low op x 0x8).trans hop

end TableRow

end Sys2Proof.Laws
end

