-- ==== Sys2Proof/Laws/Steps.lean ====
section
/-! SUPPORT. What a completion leaves alone, what a store can be, and all that one step can be, in terms of stores and completions. -/

namespace Sys2Proof.Machine

/-! ### Completions (R103) -/

/-- What no completion changes (R30, R32, R35, R25, R37): everything but the results and `CTR`. -/
theorem Pend.effect_frame (p : Pend) (s : State) :
    (p.effect s).done = s.done ∧ (p.effect s).err = s.err ∧ (p.effect s).errcode = s.errcode ∧
      (p.effect s).irqen = s.irqen ∧ (p.effect s).len = s.len ∧ (p.effect s).key = s.key ∧
      (p.effect s).nonce = s.nonce ∧ (p.effect s).din = s.din ∧ (p.effect s).pend = s.pend ∧
      (p.effect s).rstLow = s.rstLow ∧ (p.effect s).busRdata = s.busRdata ∧ (p.effect s).draws = s.draws ∧
      (p.effect s).schedule = s.schedule := by
  obtain ⟨op, a, b, c, d⟩ := p
  cases op
  case nop => simp [Pend.effect, nopEffect]
  case load => simp [Pend.effect, loadEffect]
  case qr => simp [Pend.effect, qrEffect]
  case dround => simp [Pend.effect, droundEffect]
  case block => simp [Pend.effect, blockEffect, State.generateBlock]
  case next => simp [Pend.effect, nextEffect, State.generateBlock, State.advanceCtr]
  case crypt =>
    simp only [Pend.effect, cryptEffect]
    split_ifs <;> simp [State.generateBlock, State.advanceCtr]

/-- CRYPT with LEN > 0, register by register (R172). -/
theorem cryptEffect_of_len {s : State} (h : s.len ≠ 0) :
    (cryptEffect s).ks = blockFn s.initState ∧ (cryptEffect s).work = zeroBlock ∧
      (cryptEffect s).dout = chunkOut s.len.toNat s.din (blockFn s.initState) ∧ (cryptEffect s).ctr = s.ctr + 1 := by
  rw [cryptEffect, if_neg h]
  simp [State.generateBlock, State.advanceCtr]

/-! ### Stores (R55, R240) -/

/-- A write is ignored in reset, refused as busy, or stored. -/
theorem hostStore_cases (s : State) (r : Reg) (v : Word) :
    (s.rstLow = true ∧ hostStore r v s = s) ∨
    (s.rstLow = false ∧ s.busy = true ∧ r.frozen = true ∧ hostStore r v s = s.raise .busyWrite) ∨
    (s.rstLow = false ∧ (s.busy = false ∨ r.frozen = false) ∧ hostStore r v s = s.store r v) := by
  unfold hostStore State.write
  cases s.rstLow <;> cases s.busy <;> cases r.frozen <;> simp

/-- What a store does to DONE, ERR and ERRCODE, but for the two registers that are about them. -/
theorem State.store_flags {s : State} {r : Reg} (v : Word) (hc : r ≠ .ctrl) (hs : r ≠ .status) :
    (s.store r v).done = s.done ∧ (s.store r v).err = s.err ∧ (s.store r v).errcode = s.errcode := by
  cases r with
  | ctrl => exact absurd rfl hc
  | status => exact absurd rfl hs
  | _ => simp [State.store]

/-! ### One step (R14) -/

/-- A command word is fetched from a transaction only while nothing is pending (R211). -/
theorem txInstr_cases (tx : BitVec 40) (s : State) :
    (∃ a x, txInstr tx s = .hostRead a x) ∨ (∃ a v, txInstr tx s = .hostWrite a v) ∨
    (s.pend = none ∧ ∃ v, txInstr tx s = decodeCmd v) := by
  unfold txInstr
  cases h : decodeBus tx with
  | hostRead a x => exact .inl ⟨a, x, rfl⟩
  | hostWrite a v =>
    dsimp only
    split_ifs with hh
    · exact .inr (.inr ⟨hh.2, v, rfl⟩)
    · exact .inr (.inl ⟨a, v, rfl⟩)
  | _ => unfold decodeBus at h; split_ifs at h

/-- What a step can run: a transaction, a command word presented to an idle core, or the pending command. -/
theorem fetch_run_cases {s u : State} {i : Instr} (h : fetch s = .run i u) :
    (∃ a x, i = .hostRead a x) ∨ (∃ a v, i = .hostWrite a v) ∨ (s.pend = none ∧ ∃ v, i = decodeCmd v) ∨
    (∃ p, s.pend = some p ∧ i = p.instr) := by
  have hcore : ∀ w : State, w.pend = s.pend → coreTurn w = .run i u → ∃ p, s.pend = some p ∧ i = p.instr := by
    intro w hw hh
    unfold coreTurn at hh
    split at hh
    · rename_i p hp
      injection hh with h1 h2
      exact ⟨p, hw ▸ hp, h1.symm⟩
    · cases hh
  have htx : ∀ (tx : BitVec 40) (w : State), w.pend = s.pend → txInstr tx w = i →
      (∃ a x, i = .hostRead a x) ∨ (∃ a v, i = .hostWrite a v) ∨ (s.pend = none ∧ ∃ v, i = decodeCmd v) := by
    intro tx w hw hi
    rw [← hi, ← hw]
    exact txInstr_cases tx w
  cases hs : s.schedule with
  | nil => exact .inr (.inr (.inr (hcore s rfl (by simpa [fetch, hs] using h))))
  | cons e rest =>
    unfold fetch at h
    rw [hs] at h
    cases e with
    | core => exact .inr (.inr (.inr (hcore (s.setSchedule rest) rfl h)))
    | bus tx =>
      injection h with h1 h2
      rcases htx tx s rfl h1 with h | h | h
      exacts [.inl h, .inr (.inl h), .inr (.inr (.inl h))]
    | bridge we off size wdata =>
      dsimp only [bridgeTurn] at h
      split_ifs at h
      injection h with h1 h2
      rcases htx _ (s.setSchedule rest) rfl h1 with h | h | h
      exacts [.inl h, .inr (.inl h), .inr (.inr (.inl h))]
    | rst low => cases h
    | powerLoss => cases h

/-- Presenting a command word while nothing is pending is a store to `CTRL`, whatever the word. -/
theorem exec_decodeCmd_idle {s : State} (hs : s.pend = none) (v : Word) :
    ∃ w, exec (decodeCmd v) s = .next (hostStore .ctrl w s) := by
  have hnot : ∀ op w e, commandTurn op w e s = .next (hostStore .ctrl w s) := fun op w e =>
    commandTurn_of_not_holds (s.holds_of_none hs op w)
  cases h : decodeCmd v with
  | hostRead a x => unfold decodeCmd at h; split at h <;> cases h
  | hostWrite a x => unfold decodeCmd at h; split at h <;> cases h
  | nop x => exact ⟨_, hnot _ _ _⟩
  | load x => exact ⟨_, hnot _ _ _⟩
  | qr a b c d x => exact ⟨_, hnot _ _ _⟩
  | dround x => exact ⟨_, hnot _ _ _⟩
  | block x => exact ⟨_, hnot _ _ _⟩
  | next x => exact ⟨_, hnot _ _ _⟩
  | crypt x => exact ⟨_, hnot _ _ _⟩
  | reserved7 x => exact ⟨_, rfl⟩
  | reserved8F op x => exact ⟨_, rfl⟩

/-- The pending command's turn while `rst_n` is low does nothing. -/
theorem exec_pend_instr_in_reset {s : State} (p : Pend) (hr : s.rstLow = true) : exec p.instr s = .next s := by
  rcases exec_cases p.instr s with ⟨a, x, h⟩ | ⟨a, v, h, -⟩ | ⟨v, h⟩ | ⟨h, -⟩
  · obtain ⟨op, a, b, c, d⟩ := p
    cases op <;> cases h
  · obtain ⟨op, a, b, c, d⟩ := p
    cases op <;> cases h
  · rw [h, hostStore, if_pos hr]
  · rw [hr] at h; cases h

/-- All that a step's next state can be. -/
theorem step_cases {s t : State} (h : step s = .next t) :
    let u := s.setSchedule s.schedule.tail
    (∃ v n, t = u.setRead v n) ∨
    (∃ a v, fetch s = .run (.hostWrite a v) u ∧ t = hostStore (regAt a) v u) ∨
    (s.pend = none ∧ ∃ v, t = hostStore .ctrl v u) ∨
    (∃ p, s.rstLow = false ∧ s.pend = some p ∧ t = (p.effect u).finish) ∨
    ((s.pend = none ∨ s.rstLow = true) ∧ t = u) ∨
    (∃ low rest, s.schedule = .rst low :: rest ∧ t = (s.setSchedule rest).driveReset low) := by
  dsimp only
  rcases step_next_cases h with ⟨i, u, hf, rfl, he⟩ | ⟨hp, rfl⟩ | h
  · rcases fetch_run_cases hf with ⟨a, x, rfl⟩ | ⟨a, v, rfl⟩ | ⟨hp, v, rfl⟩ | ⟨p, hp, rfl⟩
    · obtain ⟨v, n, hv⟩ := exec_hostRead_eq a x (s.setSchedule s.schedule.tail)
      rw [hv] at he
      injection he with he
      exact .inl ⟨v, n, he.symm⟩
    · injection he with he
      exact .inr (.inl ⟨a, v, hf, he.symm⟩)
    · obtain ⟨w, hw⟩ := exec_decodeCmd_idle (s := s.setSchedule s.schedule.tail) hp v
      rw [hw] at he
      injection he with he
      exact .inr (.inr (.inl ⟨hp, w, he.symm⟩))
    · cases hr : s.rstLow with
      | true =>
        rw [exec_pend_instr_in_reset p (by simpa using hr)] at he
        injection he with he
        exact .inr (.inr (.inr (.inr (.inl ⟨.inr rfl, he.symm⟩))))
      | false =>
        rw [exec_pend_instr (s := s.setSchedule s.schedule.tail) hp hr] at he
        injection he with he
        exact .inr (.inr (.inr (.inl ⟨p, rfl, hp, he.symm⟩)))
  · exact .inr (.inr (.inr (.inr (.inl ⟨.inl hp, rfl⟩))))
  · exact .inr (.inr (.inr (.inr (.inr h))))

end Sys2Proof.Machine
end

