-- ==== Sys2Proof/Tests/Slice0.lean ====
section
/-! SUPPORT. The model's own tests. Expected values are the spec's (30_encoding.md, 95_test_vectors.md, the rules' examples). Then one
witness for each statement that has hypotheses: a state and operands that meet them together, at the boundaries of its clauses. -/

namespace Sys2Proof.Tests

open Sys2Proof.Machine

/-! ### Well-formed terms -/

/-- The one check of `Instr.wellFormed`: opcodes below 8 are not of the row RESERVED_8_F (R83). -/
theorem test_wellFormed_refuses :
    Instr.wellFormed (.reserved8F 0x5 0) = false ∧ Instr.wellFormed (.reserved8F 0x7 0xFFFFFFF) = false ∧
      Instr.wellFormed (.reserved8F 0x8 0) = true ∧ Instr.wellFormed (.qr 5 5 6 7 0) = true := by decide

/-! ### Decoding, from words written out -/

/-- `wr CTRL, 0x4` is 0x8100000004, least significant byte first; `we` is bit 39, the word index 1 (R80). -/
theorem test_decode_hostWrite : decode [0x04, 0x00, 0x00, 0x00, 0x81] = .ok (.hostWrite 0x01 0x00000004) := by decide
/-- `rd STATUS` is 0x0200000000 (R80). -/
theorem test_decode_hostRead : decode [0x00, 0x00, 0x00, 0x00, 0x02] = .ok (.hostRead 0x02 0) := by decide
/-- 0xFFFFFFF0 is a NOP (E7). -/
theorem test_decode_nop : decode [0xF0, 0xFF, 0xFF, 0xFF] = .ok (.nop 0xFFFFFFF) := by decide
theorem test_decode_load : decode [0x01, 0x00, 0x00, 0x00] = .ok (.load 0) := by decide
/-- `cmd QR 2, 7, 8, 13` is 0x000D8722 (Q2). -/
theorem test_decode_qr : decode [0x22, 0x87, 0x0D, 0x00] = .ok (.qr 2 7 8 13 0) := by decide
theorem test_decode_dround : decode [0x03, 0x00, 0x00, 0x00] = .ok (.dround 0) := by decide
/-- 0x00abcde4 selects BLOCK (B7). -/
theorem test_decode_block : decode [0xE4, 0xCD, 0xAB, 0x00] = .ok (.block 0x00ABCDE) := by decide
theorem test_decode_next : decode [0x05, 0x00, 0x00, 0x00] = .ok (.next 0) := by decide
theorem test_decode_crypt : decode [0x06, 0x00, 0x00, 0x80] = .ok (.crypt 0x8000000) := by decide
theorem test_decode_reserved7 : decode [0x07, 0x00, 0x00, 0x00] = .ok (.reserved7 0) := by decide
theorem test_decode_reserved8F :
    decode [0x08, 0x00, 0x00, 0x00] = .ok (.reserved8F 0x8 0) ∧
      decode [0x1F, 0x00, 0x00, 0x00] = .ok (.reserved8F 0xF 1) := by decide
/-- Three bytes are no frame. -/
theorem test_decode_badLength : decode [0x01, 0x00, 0x00] = .rejected (.badLength 3) := by decide
/-- The table's numbering: the same words as numbers. -/
theorem test_decodeTableWord :
    decodeTableWord 32 0x000C8402 = some (.qr 0 4 8 12 0) ∧ decodeTableWord 40 0x8100000004 = some (.hostWrite 1 4) := by
  decide

/-! ### States -/

/-- The next state, none after a stop. -/
def after (i : Instr) (s : State) : Option State :=
  match exec i s with
  | .next t => some t
  | .fault _ => none
  | .refused _ => none

theorem exec_of_after {i : Instr} {s : State} {α : Type} {f : State → α} {v : α} (h : (after i s).map f = some v) :
    ∃ t, exec i s = .next t ∧ f t = v := by
  unfold after at h
  cases he : exec i s with
  | next t => rw [he] at h; exact ⟨t, rfl, Option.some.inj h⟩
  | fault r => rw [he] at h; cases h
  | refused r => rw [he] at h; cases h

/-- Every register holds a value of its own: the low byte of its offset. -/
def full : State :=
  { State.reset with
    done := true, err := true, errcode := 2, irqen := 3, len := 0x40
    key := #v[0x50, 0x54, 0x58, 0x5C, 0x60, 0x64, 0x68, 0x6C], ctr := 0x70, nonce := #v[0x74, 0x78, 0x7C]
    work := #v[0x80, 0x84, 0x88, 0x8C, 0x90, 0x94, 0x98, 0x9C, 0xA0, 0xA4, 0xA8, 0xAC, 0xB0, 0xB4, 0xB8, 0xBC]
    ks := #v[0xC0, 0xC4, 0xC8, 0xCC, 0xD0, 0xD4, 0xD8, 0xDC, 0xE0, 0xE4, 0xE8, 0xEC, 0xF0, 0xF4, 0xF8, 0xFC]
    din := #v[0x100, 0x104, 0x108, 0x10C, 0x110, 0x114, 0x118, 0x11C, 0x120, 0x124, 0x128, 0x12C, 0x130, 0x134, 0x138, 0x13C]
    dout := #v[0x140, 0x144, 0x148, 0x14C, 0x150, 0x154, 0x158, 0x15C, 0x160, 0x164, 0x168, 0x16C, 0x170, 0x174, 0x178, 0x17C] }

/-- `s` with `op` pending. -/
def busyWith (op : CmdOp) (s : State) : State := { s with pend := some ⟨op, 0, 1, 2, 3⟩, done := false }

/-- The registers of vector B1. -/
def rfc : State :=
  { State.reset with
    key := #v[0x03020100, 0x07060504, 0x0b0a0908, 0x0f0e0d0c, 0x13121110, 0x17161514, 0x1b1a1918, 0x1f1e1d1c]
    ctr := 1, nonce := #v[0x09000000, 0x4a000000, 0x00000000] }

/-- The registers of scenario S1, its message in `DIN`, LEN 38. -/
def scenario : State :=
  { State.reset with
    key := #v[0x01020304, 0x05060708, 0x090a0b0c, 0x0d0e0f10, 0x11121314, 0x15161718, 0x191a1b1c, 0x1d1e1f20]
    nonce := #v[0x00000000, 0x4a000000, 0x00000000], len := 38
    din := #v[0x6c706d49, 0x6e656d65, 0x69636174, 0x64206e6f, 0x68432065, 0x61684361, 0x65203032, 0x434d206e, 0x35314158,
      0x00000033, 0, 0, 0, 0, 0, 0] }

/-! ### One step of each instruction -/

/-- M1, M2, M3, M4. -/
theorem test_hostRead_reset :
    ([0x00, 0x10, 0x13, 0x01, 0x05, 0x7F].map fun a => (after (.hostRead a 0) State.reset).map State.busRdata) =
      [some 0x43433230, some 0x61707865, some 0x6b206574, some 0, some 0, some 0] := by decide
/-- STATUS of a busy core with code 4 is 0x45 (E4). -/
theorem test_hostRead_status :
    (after (.hostRead 2 0) { busyWith .block State.reset with err := true, errcode := 4 }).map State.busRdata =
      some 0x45 := by decide
/-- M5: LEN keeps 7 bits. -/
theorem test_hostWrite_len : (after (.hostWrite 4 0xffffffff) State.reset).map State.len = some 0x7f := by decide
/-- M12: a write of DIN[0] during a BLOCK is refused, and STATUS reads 0x45. -/
theorem test_hostWrite_busy :
    (after (.hostWrite 64 1) (busyWith .block State.reset)).map (fun t => (t.statusWord, t.din[0])) = some (0x45, 0) := by
  decide
/-- E7: accepted, STATUS is 0x01. -/
theorem test_nop_accepted : (after (.nop 0xFFFFFFF) State.reset).map State.statusWord = some 0x01 := by decide
/-- E7: completed, STATUS is 0x02. -/
theorem test_nop_completes : (after (.nop 0) (busyWith .nop State.reset)).map State.statusWord = some 0x02 := by decide
/-- B1. -/
theorem test_load_b1 : (after (.load 0) (busyWith .load rfc)).map State.work =
    some #v[0x61707865, 0x3320646e, 0x79622d32, 0x6b206574, 0x03020100, 0x07060504, 0x0b0a0908, 0x0f0e0d0c, 0x13121110,
      0x17161514, 0x1b1a1918, 0x1f1e1d1c, 0x00000001, 0x09000000, 0x4a000000, 0x00000000] := by decide
/-- Q2, with the state of the vector. -/
theorem test_qr_q2 :
    (after (.qr 2 7 8 13 0) { State.reset with
      pend := some ⟨.qr, 2, 7, 8, 13⟩
      work := #v[0x879531e0, 0xc5ecf37d, 0x516461b1, 0xc9a62f8a, 0x44c20ef3, 0x3390af7f, 0xd9fc690b, 0x2a5f714c, 0x53372767,
        0xb00a5631, 0x974c541a, 0x359e9963, 0x5c971061, 0x3d631689, 0x2098d9d6, 0x91dbd320] }).map State.work =
    some #v[0x879531e0, 0xc5ecf37d, 0xbdb886dc, 0xc9a62f8a, 0x44c20ef3, 0x3390af7f, 0xd9fc690b, 0xcfacafd2, 0xe46bea80,
      0xb00a5631, 0x974c541a, 0x359e9963, 0x5c971061, 0xccc07c79, 0x2098d9d6, 0x91dbd320] := by decide
/-- Q9: QR 0, 1, 1, 3 is refused with code 3. -/
theorem test_qr_q9 : (after (.qr 0 1 1 3 0) State.reset).map (fun t => (t.statusWord, t.pend)) = some (0x34, none) := by
  decide
/-- B2: one double round on B1. -/
theorem test_dround_b2 : (after (.dround 0) (busyWith .dround { rfc with work := rfc.initState })).map State.work =
    some #v[0xcd52e917, 0x85ab03b4, 0xb3457395, 0xf96de7dd, 0xc4b7cd22, 0x5c2e187a, 0xc95eb461, 0x316c801a, 0x7bf7d740,
      0x7eddd644, 0xf1a1bdf5, 0x761246ca, 0x6b0d58a3, 0x6798471a, 0xd737f167, 0xf173888d] := by decide +kernel
/-- B3: BLOCK on B1; CTR stays 1, STATE is zero, STATUS is 0x2. -/
theorem test_block_b3 :
    (after (.block 0) (busyWith .block rfc)).map (fun t => (t.ks, t.ctr, t.work, t.statusWord)) =
    some (#v[0xe4e7f110, 0x15593bd1, 0x1fdd0f50, 0xc47120a3, 0xc7f4d1c7, 0x0368c033, 0x9aaa2204, 0x4e6cd4c3, 0x466482d2,
      0x09aa9f07, 0x05d7c214, 0xa2028bd9, 0xd19c12b5, 0xb94e16de, 0xe883d0cb, 0x4e3c50a2], 1,
      #v[0, 0, 0, 0, 0, 0, 0, 0, 0, 0, 0, 0, 0, 0, 0, 0], 0x2) := by decide +kernel
/-- K2: the counter wraps with no error; KS is B6. -/
theorem test_next_k2 :
    (after (.next 0) (busyWith .next { State.reset with ctr := 0xffffffff })).map (fun t => (t.ks, t.ctr, t.statusWord)) =
    some (#v[0x09cde4ac, 0x91d194e2, 0x05d24a2d, 0xd9956fd0, 0xcfbff2c2, 0x53873e45, 0x5b7628f1, 0x4d5f2162, 0x2f4fc792,
      0x646a6c62, 0x84120b0c, 0x81ec39d8, 0x816269f1, 0x683efcda, 0x70939345, 0x1d8bb523], 0, 0x2) := by decide +kernel
/-- S1: 38 bytes; the bytes from 38 on read 0. -/
theorem test_crypt_s1 :
    (after (.crypt 0) (busyWith .crypt scenario)).map (fun t => (t.dout, t.ctr, t.statusWord)) =
    some (#v[0x0a819016, 0x6fa31a67, 0x105f5eff, 0x3425a7e5, 0x9a7c91a0, 0x716a171f, 0xc48e18aa, 0x781b5335, 0x140c6514,
      0x00000096, 0, 0, 0, 0, 0, 0], 1, 0x2) := by decide +kernel
/-- K10: CRYPT with LEN 65 is refused with code 2. -/
theorem test_crypt_k10 : (after (.crypt 0) { State.reset with len := 65 }).map (fun t => (t.statusWord, t.pend)) =
    some (0x24, none) := by decide
/-- E1. -/
theorem test_reserved7_e1 : (after (.reserved7 0) State.reset).map State.statusWord = some 0x14 := by decide
/-- E4: while busy the word is not decoded; code 4. -/
theorem test_reserved7_busy : (after (.reserved7 0) (busyWith .block State.reset)).map State.statusWord = some 0x45 := by
  decide
/-- E1b: the first code is kept. -/
theorem test_reserved8F_e1b :
    (after (.reserved8F 0xF 0) { State.reset with err := true, errcode := 1 }).map State.statusWord = some 0x14 := by decide
/-- I2: `irq` rises with ERR. -/
theorem test_reserved8F_i2 : (after (.reserved8F 0x9 0) { State.reset with irqen := 2 }).map State.irq = some true := by
  decide

/-! ### Witnesses: encoding -/

theorem witness_DecodeOfEncode : Instr.wellFormed (.reserved8F 0x8 0xFFFFFFF) = true ∧ Instr.wellFormed (.qr 5 5 6 7 0) = true := by
  decide

theorem witness_EncodeOfDecode : decode [0x02, 0x84, 0x0C, 0x00] = .ok (.qr 0 4 8 12 0) ∧
    decode [0xFF, 0xFF, 0xFF, 0xFF, 0xFF] = .ok (.hostWrite 0x7F 0xFFFFFFFF) := by decide

/-- A word for each opcode, and both ends of the last clause. -/
theorem witness_OpcodeFieldSelectsRow :
    (0xFFFFFFF0 : Word) &&& 0xF = 0 ∧ (0x1 : Word) &&& 0xF = 1 ∧ (0xC8402 : Word) &&& 0xF = 2 ∧ (0x3 : Word) &&& 0xF = 3 ∧
    (0xABCDE4 : Word) &&& 0xF = 4 ∧ (0x5 : Word) &&& 0xF = 5 ∧ (0x6 : Word) &&& 0xF = 6 ∧ (0x7 : Word) &&& 0xF = 7 ∧
    8 ≤ ((0x8 : Word) &&& 0xF).toNat ∧ 8 ≤ ((0xFFFFFFFF : Word) &&& 0xF).toNat := by decide

/-- A BLOCK with and without ignored bits (B7), and a QR whose bits 31:20 differ. -/
theorem witness_IgnoredBitsDoNotMatter :
    ((0x00abcde4 : Word) &&& 0xF = 0x4 &&& 0xF ∧
      ((0x00abcde4 : Word) &&& 0xF = 2 → (0x00abcde4 : Word) &&& 0xFFFFF = 0x4 &&& 0xFFFFF)) ∧
    ((0xFFFC8402 : Word) &&& 0xF = 0x000C8402 &&& 0xF ∧ (0xFFFC8402 : Word) &&& 0xF = 2 ∧
      (0xFFFC8402 : Word) &&& 0xFFFFF = 0x000C8402 &&& 0xFFFFF) := by decide

/-! ### Witnesses: the step -/

/-- A read, a write that is no `CTRL` write, and a `CTRL` write to a busy core. -/
theorem witness_StepRunsTransaction :
    (∀ tx ∈ ([busWord false 0 0, busWord true 4 64] : List (BitVec 40)), ∀ v, decodeBus tx ≠ .hostWrite 1 v) ∧
    (busyWith .nop State.reset).pend ≠ none := by
  refine ⟨?_, by decide⟩
  intro tx htx v
  simp only [List.mem_cons, List.not_mem_nil, or_false] at htx
  rcases htx with rfl | rfl <;> simp

theorem witness_StepRunsCommandWord :
    ({ State.reset with schedule := [.bus (busWord true 1 0x4)] } : State).schedule = .bus (busWord true 1 0x4) :: [] ∧
      State.reset.pend = none := ⟨rfl, rfl⟩

/-- With an empty schedule, and with the core's turn on it. -/
theorem witness_StepRunsPendingCommand :
    (busyWith .qr State.reset).pend = some ⟨.qr, 0, 1, 2, 3⟩ ∧ (busyWith .qr State.reset).schedule = [] ∧
      ({ busyWith .qr State.reset with schedule := [.core] } : State).schedule = .core :: [] := ⟨rfl, rfl, rfl⟩

theorem witness_IdleCoreWaits :
    State.reset.pend = none ∧ State.reset.schedule = [] ∧
      ({ State.reset with schedule := [.core] } : State).schedule = .core :: [] := ⟨rfl, rfl, rfl⟩

theorem witness_CommandArmIsCtrlWrite : State.reset.pend = none := rfl

/-! ### Witnesses: transactions -/

/-- Both ends of every range of the table: read by read, the value the table gives. -/
theorem witness_HostReadReturns :
    full.rstLow = false ∧
    ([0, 1, 2, 3, 4, 5, 15, 16, 19, 20, 27, 28, 29, 31, 32, 47, 48, 63, 64, 79, 80, 95, 96, 127].map fun a =>
      (after (.hostRead a 0xFFFFFFFF) full).map State.busRdata) =
    [some 0x43433230, some 0, some 0x26, some 3, some 0x40, some 0, some 0, some 0x61707865, some 0x6b206574, some 0x50,
      some 0x6C, some 0x70, some 0x74, some 0x7C, some 0x80, some 0xBC, some 0xC0, some 0xFC, some 0x100, some 0x13C,
      some 0x140, some 0x17C, some 0, some 0] := by decide

/-- While busy: STATUS, LEN, the parameters and DIN still read their values, and the drawn windows draw. -/
theorem witness_HostReadReturns_busy :
    (busyWith .nop full).rstLow = false ∧ (busyWith .nop full).pend ≠ none ∧
    ([2, 4, 20, 31, 64, 79].map fun a => (after (.hostRead a 0) (busyWith .nop full)).map State.busRdata) =
      [some 0x25, some 0x40, some 0x50, some 0x7C, some 0x100, some 0x13C] ∧
    ([31, 32, 47, 48, 63, 64, 79, 80, 95, 96].map fun a =>
      (after (.hostRead a 0) (busyWith .nop full)).map State.draws) =
      [some 0, some 1, some 1, some 1, some 1, some 0, some 0, some 1, some 1, some 0] := by decide

theorem witness_InitialStateOrder : full.rstLow = false ∧ (busyWith .load full).rstLow = false := ⟨rfl, rfl⟩

/-- Both ends of every range that is written: write by write, a register the write changed. -/
theorem witness_HostWriteDoes :
    full.rstLow = false ∧ full.pend = none ∧
    (after (.hostWrite 1 0x1) full).map State.busy = some true ∧
    (after (.hostWrite 2 0x6) full).map State.statusWord = some 0 ∧
    (after (.hostWrite 3 0xFFFFFFFE) full).map State.irqen = some 2 ∧
    (after (.hostWrite 4 0xFFFFFFC0) full).map State.len = some 0x40 ∧
    (after (.hostWrite 20 1) full).map (fun t => (t.key[0], t.key[1])) = some (1, 0x54) ∧
    (after (.hostWrite 27 1) full).map (fun t => (t.key[7], t.key[6])) = some (1, 0x68) ∧
    (after (.hostWrite 28 1) full).map State.ctr = some 1 ∧
    (after (.hostWrite 29 1) full).map State.nonce = some #v[1, 0x78, 0x7C] ∧
    (after (.hostWrite 31 1) full).map State.nonce = some #v[0x74, 0x78, 1] ∧
    (after (.hostWrite 32 1) full).map (fun t => (t.work[0], t.work[1])) = some (1, 0x84) ∧
    (after (.hostWrite 47 1) full).map (fun t => (t.work[15], t.work[14])) = some (1, 0xB8) ∧
    (after (.hostWrite 64 1) full).map (fun t => (t.din[0], t.din[1])) = some (1, 0x104) ∧
    (after (.hostWrite 79 1) full).map (fun t => (t.din[15], t.din[14])) = some (1, 0x138) ∧
    (after (.hostWrite 5 1) full) = some full ∧ (after (.hostWrite 127 1) full) = some full := by decide

theorem witness_ReservedOffsets :
    State.reset.rstLow = false ∧ (busyWith .nop State.reset).rstLow = false ∧
    ∀ a ∈ ([5, 15, 96, 127] : List (BitVec 7)),
      (0x014 ≤ 4 * a.toNat ∧ 4 * a.toNat ≤ 0x03C) ∨ 0x180 ≤ 4 * a.toNat := by decide

theorem witness_ReadOnlyWritesIgnored :
    (∀ a ∈ ([0, 16, 19, 48, 63, 80, 95] : List (BitVec 7)), a.toNat = 0 ∨ (16 ≤ a.toNat ∧ a.toNat ≤ 19) ∨
      (48 ≤ a.toNat ∧ a.toNat ≤ 63) ∨ (80 ≤ a.toNat ∧ a.toNat ≤ 95)) ∧
    ((0x6 : Word).getLsbD 1 = (0xFFFFFFFF : Word).getLsbD 1 ∧ (0x6 : Word).getLsbD 2 = (0xFFFFFFFF : Word).getLsbD 2) ∧
    (0x3 : Word).extractLsb' 0 2 = (0xFFFFFFFF : Word).extractLsb' 0 2 ∧
    (0x7F : Word).extractLsb' 0 7 = (0xFFFFFFFF : Word).extractLsb' 0 7 := by decide

theorem witness_BusyWriteRefused :
    (busyWith .nop State.reset).rstLow = false ∧ (busyWith .nop State.reset).pend ≠ none ∧
    ∀ a ∈ ([1, 4, 20, 31, 32, 47, 64, 79] : List (BitVec 7)),
      4 * a.toNat = 0x004 ∨ 4 * a.toNat = 0x010 ∨ (0x050 ≤ 4 * a.toNat ∧ 4 * a.toNat ≤ 0x07C) ∨
        (0x080 ≤ 4 * a.toNat ∧ 4 * a.toNat ≤ 0x0BC) ∨ (0x100 ≤ 4 * a.toNat ∧ 4 * a.toNat ≤ 0x13C) := by decide

theorem witness_StatusWriteClears : full.rstLow = false ∧ (busyWith .nop full).rstLow = false := ⟨rfl, rfl⟩

theorem witness_OnlyHostWritesParameters : exec (.load 0) State.reset = .next ((State.reset.setPend
    (some ⟨.load, 0, 0, 0, 0⟩)).setDone false) := by rfl

/-- Each writer writes: BLOCK writes `KS`, CRYPT with LEN > 0 writes `DOUT`, a host write and NEXT write `CTR`. -/
theorem witness_ResultWriters :
    (∃ t, exec (.block 0) (busyWith .block rfc) = .next t ∧ t.ks ≠ rfc.ks) ∧
    (∃ t, exec (.crypt 0) (busyWith .crypt scenario) = .next t ∧ t.dout ≠ scenario.dout) ∧
    (∃ t, exec (.next 0) (busyWith .next { State.reset with ctr := 0xffffffff }) = .next t ∧ t.ctr ≠ 0xffffffff) ∧
    (∃ t, exec (.hostWrite 28 7) State.reset = .next t ∧ t.ctr ≠ State.reset.ctr) := by
  refine ⟨?_, ?_, ?_, ⟨_, rfl, by decide⟩⟩
  · obtain ⟨t, ht, h⟩ := exec_of_after test_block_b3
    simp only [Prod.mk.injEq] at h
    exact ⟨t, ht, by rw [h.1]; decide⟩
  · obtain ⟨t, ht, h⟩ := exec_of_after test_crypt_s1
    simp only [Prod.mk.injEq] at h
    exact ⟨t, ht, by rw [h.1]; decide⟩
  · obtain ⟨t, ht, h⟩ := exec_of_after test_next_k2
    simp only [Prod.mk.injEq] at h
    exact ⟨t, ht, by rw [h.2.1]; decide⟩

/-! ### Witnesses: acceptance -/

/-- Each outcome of `Command(v)` at the boundaries: opcode 7 and 15, LEN 64 and 65, two equal indices and none. -/
theorem witness_CtrlWriteValidates :
    State.reset.ready ∧ ({ State.reset with len := 65 } : State).ready ∧
    (after (.hostWrite 1 0x7) State.reset).map State.statusWord = some 0x14 ∧
    (after (.hostWrite 1 0xF) State.reset).map State.statusWord = some 0x14 ∧
    (after (.hostWrite 1 0x6) { State.reset with len := 65 }).map State.statusWord = some 0x24 ∧
    (after (.hostWrite 1 0x6) { State.reset with len := 64 }).map State.statusWord = some 0x01 ∧
    (after (.hostWrite 1 0x00076552) State.reset).map State.statusWord = some 0x34 ∧
    (after (.hostWrite 1 0x000C8402) State.reset).map State.pend = some (some ⟨.qr, 0, 4, 8, 12⟩) :=
  ⟨⟨rfl, rfl⟩, ⟨rfl, rfl⟩, by decide, by decide, by decide, by decide, by decide, by decide⟩

theorem witness_ReservedOpcodesRaise :
    (State.reset.rstLow = false ∧ State.reset.pend = none) ∧
    ((busyWith .nop State.reset).rstLow = false ∧ (busyWith .nop State.reset).pend ≠ none) ∧
    8 ≤ (0x8 : BitVec 4).toNat ∧ 8 ≤ (0xF : BitVec 4).toNat := by decide

theorem witness_BadLenRefused :
    ({ State.reset with len := 65 } : State).ready ∧ 64 < ({ State.reset with len := 65 } : State).len.toNat ∧
      64 < ({ State.reset with len := 127 } : State).len.toNat := ⟨⟨rfl, rfl⟩, by decide, by decide⟩

theorem witness_BadQrIndexRefused :
    State.reset.ready ∧ ¬([5, 5, 6, 7] : List (BitVec 4)).Nodup ∧ ¬([0, 1, 2, 0] : List (BitVec 4)).Nodup :=
  ⟨⟨rfl, rfl⟩, by decide, by decide⟩

theorem witness_CommandsAccepted :
    ({ State.reset with len := 64 } : State).ready ∧ ([3, 2, 1, 0] : List (BitVec 4)).Nodup ∧
      ({ State.reset with len := 64 } : State).len.toNat ≤ 64 := ⟨⟨rfl, rfl⟩, by decide, by decide⟩

/-! ### Witnesses: completions -/

theorem witness_NopCompletes : (busyWith .nop State.reset).rstLow = false ∧
    (busyWith .nop State.reset).pend = some ⟨.nop, 0, 1, 2, 3⟩ := ⟨rfl, rfl⟩
theorem witness_LoadCompletes : (busyWith .load State.reset).rstLow = false ∧
    (busyWith .load State.reset).pend = some ⟨.load, 0, 1, 2, 3⟩ := ⟨rfl, rfl⟩
theorem witness_DroundCompletes : (busyWith .dround State.reset).rstLow = false ∧
    (busyWith .dround State.reset).pend = some ⟨.dround, 0, 1, 2, 3⟩ := ⟨rfl, rfl⟩
theorem witness_BlockCompletes : (busyWith .block State.reset).rstLow = false ∧
    (busyWith .block State.reset).pend = some ⟨.block, 0, 1, 2, 3⟩ := ⟨rfl, rfl⟩
theorem witness_NextCompletes : (busyWith .next State.reset).rstLow = false ∧
    (busyWith .next State.reset).pend = some ⟨.next, 0, 1, 2, 3⟩ := ⟨rfl, rfl⟩

theorem witness_QrCompletes :
    (busyWith .qr State.reset).rstLow = false ∧ (busyWith .qr State.reset).pend = some ⟨.qr, 0, 1, 2, 3⟩ ∧
      ([0, 1, 2, 3] : List (BitVec 4)).Nodup ∧ (15 : BitVec 4) ∉ ([0, 1, 2, 3] : List (BitVec 4)) := by decide

/-- LEN 1, 64, and 127 (a length no accepted CRYPT has). -/
theorem witness_CryptCompletes :
    (∀ n ∈ ([1, 64, 127] : List (BitVec 7)), ({ busyWith .crypt State.reset with len := n } : State).len ≠ 0) ∧
      (busyWith .crypt State.reset).rstLow = false ∧
      (busyWith .crypt State.reset).pend = some ⟨.crypt, 0, 1, 2, 3⟩ := by decide

theorem witness_EmptyCryptCompletes :
    (busyWith .crypt State.reset).rstLow = false ∧ (busyWith .crypt State.reset).pend = some ⟨.crypt, 0, 1, 2, 3⟩ ∧
      (busyWith .crypt State.reset).len = 0 := by decide

/-! ### Witnesses: the cipher and whole messages -/

theorem witness_InPlaceAndPureAgree : ([2, 7, 8, 13] : List (Fin 16)).Nodup := by decide

theorem witness_RoundOrderDoesNotMatter :
    columnGroups.reverse.Perm columnGroups ∧ diagonalGroups.reverse.Perm diagonalGroups :=
  ⟨List.reverse_perm _, List.reverse_perm _⟩

theorem witness_EightQrsAreOneDround : rfc.ready := ⟨rfl, rfl⟩
theorem witness_TenDroundsAndFeedForwardAreBlock : rfc.ready := ⟨rfl, rfl⟩
theorem witness_RepeatedNextAdvances : ({ State.reset with ctr := 0xffffffff } : State).ready := ⟨rfl, rfl⟩

/-- Lane 0 on both sides of LEN, with windows that differ in another lane. -/
theorem witness_ByteLanesAreIndependent :
    (((0 : Fin 64).val < 1 ↔ (0 : Fin 64).val < 64) ∧ ((0 : Fin 64).val < 0 ↔ (0 : Fin 64).val < 0)) ∧
    wbyte (zeroBlock.set 0 0xAB) 0 = wbyte (zeroBlock.set 0 0xCDAB) 0 ∧
    zeroBlock.set 0 0xAB ≠ zeroBlock.set 0 0xCDAB := by decide

/-- Two cores that agree on the parameters and on nothing else. -/
theorem witness_CryptDependsOnParametersAlone :
    let s : State := { State.reset with len := 64 }
    let u : State := { State.reset with len := 64, work := full.work, ks := full.ks, dout := full.dout, err := true, errcode := 1 }
    s.ready ∧ u.ready ∧ s.key = u.key ∧ s.nonce = u.nonce ∧ s.ctr = u.ctr ∧ s.len = u.len ∧ s.din = u.din ∧
      0 < s.len.toNat ∧ s.len.toNat ≤ 64 ∧ s ≠ u :=
  ⟨⟨rfl, rfl⟩, ⟨rfl, rfl⟩, rfl, rfl, rfl, rfl, rfl, by decide, by decide, by decide⟩

theorem witness_CryptTwiceRestoresChunk : scenario.ready ∧ 0 < scenario.len.toNat ∧ scenario.len.toNat ≤ 64 ∧
    (37 : Fin 64).val < scenario.len.toNat := ⟨⟨rfl, rfl⟩, by decide, by decide, by decide⟩

theorem witness_EncryptIsXorWithKeystream : full.ready := ⟨rfl, rfl⟩
theorem witness_EncryptTwiceRestoresMessage : State.reset.ready ∧ full.ready := ⟨⟨rfl, rfl⟩, ⟨rfl, rfl⟩⟩

/-! ### Witnesses: interrupt, reset, whole-machine rules -/

theorem witness_IrqFollowsStatusAndIrqen : full.rstLow = false ∧ full.irq = true := by decide

/-- A step that keeps ERR, one that clears it by STATUS, and one that clears it by reset. -/
theorem witness_ErrorIsSticky :
    (∃ t, step full = .next t ∧ full.err = true ∧ t.err = true) ∧
    (∃ t, step { full with schedule := [wr 2 0x4] } = .next t ∧ t.err = false) ∧
    (∃ t, step { full with schedule := [.rst true] } = .next t ∧ t.err = false) :=
  ⟨⟨_, rfl, rfl, rfl⟩, ⟨_, rfl, rfl⟩, ⟨_, rfl, rfl⟩⟩

theorem witness_DoneIsSetByCompletion :
    ∃ t, step (busyWith .nop State.reset) = .next t ∧ (busyWith .nop State.reset).done = false ∧ t.done = true :=
  ⟨_, rfl, rfl, rfl⟩

/-- A refused write while busy: PEND stays. -/
theorem witness_OperandsFrozenWhileBusy :
    ∃ t, step { busyWith .block full with schedule := [wr 20 1] } = .next t ∧ (busyWith .block full).pend ≠ none ∧
      t.pend ≠ none := ⟨_, rfl, by decide, by decide⟩

/-- A careful host: code 4 from before, and its next event a read. -/
theorem witness_CarefulHostNeverBusyWrite :
    let s : State := { busyWith .nop State.reset with err := true, errcode := 4, schedule := [rd 2] }
    ∃ t, step s = .next t ∧ ¬s.writesWhileBusy ∧ t.err = true ∧ t.errcode = 4 := by
  refine ⟨_, rfl, ?_, rfl, rfl⟩
  rintro ⟨-, a, v, h, -⟩
  have hf : fetch { busyWith .nop State.reset with err := true, errcode := 4, schedule := [rd 2] } =
      .run (.hostRead 2 0) { busyWith .nop State.reset with err := true, errcode := 4, schedule := [] } := by decide
  rw [hf] at h
  cases h

theorem witness_WriteAndCompletionEitherOrder :
    (busyWith .block State.reset).rstLow = false ∧
      (busyWith .block State.reset).pend = some ⟨.block, 0, 1, 2, 3⟩ ∧ (busyWith .block State.reset).err = false := by decide

theorem witness_ResetStep :
    ({ full with schedule := [.rst true] } : State).schedule = .rst true :: [] ∧
      ({ full with schedule := [.rst false, .core] } : State).schedule = .rst false :: [.core] := ⟨rfl, rfl⟩

theorem witness_ResetIgnoresTransactions : ({ State.reset with rstLow := true } : State).rstLow = true ∧ (1 : BitVec 7) ≠ 0 := by
  decide

/-- The invariant holds of a busy QR with an error flagged, and a step leaves it. -/
theorem witness_StepKeepsInvariant :
    let s : State := { busyWith .qr State.reset with err := true, errcode := 4 }
    s.Inv ∧ ∃ t, step s = .next t := by
  refine ⟨⟨by decide, by decide, by decide, ?_, ?_, fun h => by cases h⟩, ⟨_, rfl⟩⟩
  · intro p hp ho
    cases hp
    decide
  · intro p hp ho
    cases hp
    cases ho

theorem witness_PendingCommandEnds :
    let s : State := { busyWith .block State.reset with schedule := [rd 2, wr 20 1, .rst false, rd 2] }
    s.rstLow = false ∧ s.portOnly ∧ s.pend ≠ none := by
  refine ⟨rfl, ?_, by decide⟩
  intro e he
  simp only [List.mem_cons, List.not_mem_nil, or_false] at he
  rcases he with rfl | rfl | rfl | rfl
  exacts [.inl ⟨_, rfl⟩, .inl ⟨_, rfl⟩, .inr (.inr ⟨_, rfl⟩), .inl ⟨_, rfl⟩]

/-- A word inside the space, the first offset outside it, and a byte access. -/
theorem witness_BridgeAccess :
    (∃ t, step { State.reset with schedule := [.bridge true 0x1FC 4 1] } = .next t) ∧
    step { State.reset with schedule := [.bridge true 0x200 4 1] } = .fault .offsetOutsideSpace ∧
    step { State.reset with schedule := [.bridge false 0x001 1 0] } = .refused .notAWordAccess ∧
    step { State.reset with schedule := [.bridge false 0x002 4 0] } = .refused .notAWordAccess :=
  ⟨⟨_, rfl⟩, rfl, rfl, rfl⟩

end Sys2Proof.Tests
end

section
/-! PROOFS. The hardwired `ID` register (R20). -/

namespace Sys2Proof.Machine

/-- The word index of `ID` (offset 0x000, R50). -/
@[simp] theorem regAt_id : regAt 0 = .id := rfl

/-- A write that stores nothing in a register the freeze does not cover leaves the state alone: busy, idle or in reset. -/
theorem hostStore_of_store_ignored {s : State} {r : Reg} {v : Word} (hf : r.frozen = false) (hs : s.store r v = s) :
    hostStore r v s = s := by
  rcases hostStore_cases s r v with ⟨-, h⟩ | ⟨-, -, hfrozen, -⟩ | ⟨-, -, h⟩
  · exact h
  · rw [hf] at hfrozen; cases hfrozen
  · rw [h, hs]

/-- A read of `ID` draws nothing, out of reset and in reset. -/
theorem exec_hostRead_id (x : Word) (s : State) : exec (.hostRead 0 x) s = .next (s.setRead idValue 0) := by
  rw [exec_hostRead, regAt_id]
  split_ifs
  · rw [State.readInReset, if_pos rfl]
  · rw [State.read_of_not_drawn (.inr rfl), State.regValue]

/-- Writes of `ID` are ignored (R57). -/
theorem exec_hostWrite_id (v : Word) (s : State) : exec (.hostWrite 0 v) s = .next s := by
  rw [exec_hostWrite, regAt_id, hostStore_of_store_ignored rfl rfl]

/-- Settles O13: the read returns `idValue` on both sides of `rst_n`, and `ID` is neither frozen nor stored. -/
theorem idIsHardwired : Obligations.IdIsHardwired :=
  fun s x v => ⟨exec_hostRead_id x s, exec_hostWrite_id v s⟩

end Sys2Proof.Machine
end

section
/-! PROOFS. The register map read from an offset (R50, R52): which register a word index names. -/

namespace Sys2Proof.Machine

theorem regAt_eq_id {a : BitVec 7} : regAt a = .id ↔ a.toNat = 0 := by revert a; decide
theorem regAt_eq_ctrl {a : BitVec 7} : regAt a = .ctrl ↔ a.toNat = 1 := by revert a; decide
theorem regAt_eq_status {a : BitVec 7} : regAt a = .status ↔ a.toNat = 2 := by revert a; decide
theorem regAt_eq_irqen {a : BitVec 7} : regAt a = .irqen ↔ a.toNat = 3 := by revert a; decide
theorem regAt_eq_len {a : BitVec 7} : regAt a = .len ↔ a.toNat = 4 := by revert a; decide
theorem regAt_eq_ctr {a : BitVec 7} : regAt a = .ctr ↔ a.toNat = 28 := by revert a; decide

/-- A word index inside a range of the map is the range's base and an index into the range (R52). -/
theorem addr_eq_base_add {a : BitVec 7} {base n : Nat} (hlo : base ≤ a.toNat) (hhi : a.toNat < base + n) :
    ∃ i : Fin n, a.toNat = base + i.val ∧ a = BitVec.ofNat 7 (base + i.val) := by
  have hi : base + (a.toNat - base) = a.toNat := by omega
  exact ⟨⟨a.toNat - base, by omega⟩, hi.symm, by simp [hi]⟩

theorem not_drawn_of_offset {a : BitVec 7} (h : ¬((32 ≤ a.toNat ∧ a.toNat < 64) ∨ (80 ≤ a.toNat ∧ a.toNat < 96))) :
    (regAt a).drawnWhileBusy = false :=
  Bool.eq_false_of_not_eq_true (mt regAt_drawn.mp h)

theorem not_frozen_of_offset {a : BitVec 7}
    (h : ¬(a.toNat = 1 ∨ a.toNat = 4 ∨ (20 ≤ a.toNat ∧ a.toNat < 48) ∨ (64 ≤ a.toNat ∧ a.toNat < 80))) :
    (regAt a).frozen = false :=
  Bool.eq_false_of_not_eq_true (mt regAt_frozen.mp h)

end Sys2Proof.Machine
end

section
/-! PROOFS. What HOST_READ returns (R53, R54, R56). -/

namespace Sys2Proof.Machine

theorem State.busy_eq_true {s : State} : s.busy = true ↔ s.pend ≠ none := by
  rw [ne_eq, ← State.busy_eq_false, Bool.not_eq_false]

/-- An outcome equals a table's row by row: the row's own outcome where its condition holds, the rest where it fails. -/
theorem eq_next_ite {c : Prop} [Decidable c] {o : Host.Outcome State Fault Refusal} {t u : State}
    (ht : c → o = .next t) (hu : ¬c → o = .next u) : o = .next (if c then t else u) := by
  by_cases hc : c
  · rw [if_pos hc, ht hc]
  · rw [if_neg hc, hu hc]

/-- Offsets 0x040 to 0x07C read the initial state, word by word (R53, R140). -/
theorem State.regValue_initState (s : State) (i : Fin 16) :
    s.regValue (regAt (BitVec.ofNat 7 (16 + i.val))) = s.initState[i] := by
  fin_cases i <;> rfl

/-- The registers of a 16-word range read the window's words at their offsets (R52, R53). -/
theorem regValue_range {s : State} {a : BitVec 7} {base off : Nat} (b : Block) (hoff : off = 4 * base)
    (hb : ∀ i : Fin 16, s.regValue (regAt (BitVec.ofNat 7 (base + i.val))) = b[i]) (hlo : base ≤ a.toNat)
    (hhi : a.toNat < base + 16) : s.regValue (regAt a) = b.toList.getD ((4 * a.toNat - off) / 4) 0 := by
  obtain ⟨i, hi, ha⟩ := addr_eq_base_add hlo hhi
  have hk : (4 * a.toNat - off) / 4 = i.val := by omega
  rw [hk, ha, hb]
  simp

/-- The concatenation of R22's fields, as the sum of its bits in place. -/
theorem State.statusWord_eq (s : State) :
    s.statusWord = (s.errcode.setWidth 32 <<< 4) ||| (if s.err = true then 4 else 0) |||
      (if s.done = true then 2 else 0) ||| (if s.pend = none then 0 else 1) := by
  have hb : s.busy = !decide (s.pend = none) := by cases h : s.pend <;> simp [State.busy, h]
  have hword : ∀ (c : BitVec 4) (e d n : Bool),
      (0 : BitVec 24) ++ c ++ (0 : BitVec 1) ++ BitVec.ofBool e ++ BitVec.ofBool d ++ BitVec.ofBool (!n) =
        (c.setWidth 32 <<< 4) ||| (if e = true then 4 else 0) ||| (if d = true then 2 else 0) |||
          (if n = true then 0 else 1) := by decide
  rw [State.statusWord, hb, hword]
  simp only [decide_eq_true_eq]

/-- HOST_READ of a register that is not drawn: its value, and nothing else moves (R53). -/
theorem exec_hostRead_register {s : State} {a : BitVec 7} {r : Reg} (hr : s.rstLow = false) (ha : regAt a = r)
    (hd : r.drawnWhileBusy = false) (x : Word) :
    exec (.hostRead a x) s = .next { s with busRdata := s.regValue r } := by
  rw [exec_hostRead, if_neg (by simp [hr]), ha, State.read_of_not_drawn (.inr hd)]
  rfl

/-- HOST_READ of a drawn window: its word in an idle core, a drawn value in a busy one (R53, R54). -/
theorem exec_hostRead_window {s : State} {a : BitVec 7} (hr : s.rstLow = false)
    (hd : (regAt a).drawnWhileBusy = true) (x : Word) :
    exec (.hostRead a x) s = .next (
      if s.pend = none then { s with busRdata := s.regValue (regAt a) }
      else { s with busRdata := Config.busreadDraw s.draws, draws := s.draws + 1 }) := by
  rw [exec_hostRead, if_neg (by simp [hr])]
  by_cases hp : s.pend = none
  · rw [State.read_of_not_drawn (.inl (State.busy_eq_false.mpr hp)), if_pos hp]
    rfl
  · rw [State.read, if_pos (by simp [State.busy_eq_true.mpr hp, hd]), if_neg hp]
    rfl

/-- Reserved offsets read 0, busy or not (R56). -/
theorem exec_hostRead_reserved {s : State} {a : BitVec 7} (hr : s.rstLow = false) (ha : regAt a = .reserved) (x : Word) :
    exec (.hostRead a x) s = .next { s with busRdata := 0 } :=
  exec_hostRead_register hr ha rfl x

/-- Settles O14: one case for each row of the table; the row names the register, and the register's value is the row's. -/
theorem hostReadReturns : Obligations.HostReadReturns := by
  intro s a x hr
  dsimp only
  refine eq_next_ite (fun h => ?_) fun h => ?_ -- ID
  · exact exec_hostRead_register hr (regAt_eq_id.mpr (by omega)) rfl x
  refine eq_next_ite (fun h => ?_) fun h => ?_ -- CTRL
  · exact exec_hostRead_register hr (regAt_eq_ctrl.mpr (by omega)) rfl x
  refine eq_next_ite (fun h => ?_) fun h => ?_ -- STATUS
  · rw [exec_hostRead_register hr (regAt_eq_status.mpr (by omega)) rfl, State.regValue, State.statusWord_eq]
  refine eq_next_ite (fun h => ?_) fun h => ?_ -- IRQEN
  · exact exec_hostRead_register hr (regAt_eq_irqen.mpr (by omega)) rfl x
  refine eq_next_ite (fun h => ?_) fun h => ?_ -- LEN
  · exact exec_hostRead_register hr (regAt_eq_len.mpr (by omega)) rfl x
  refine eq_next_ite (fun h => ?_) fun h => ?_ -- CONST, KEY, CTR, NONCE
  · rw [exec_hostRead_register hr rfl (not_drawn_of_offset (by omega)),
      regValue_range (base := 16) s.initState rfl s.regValue_initState (by omega) (by omega)]
  refine eq_next_ite (fun h => ?_) fun h => ?_ -- STATE
  · rw [exec_hostRead_window hr (regAt_drawn.mpr (by omega)),
      regValue_range (base := 32) s.work rfl (fun i => by rw [regAt_work, State.regValue]) (by omega) (by omega)]
  refine eq_next_ite (fun h => ?_) fun h => ?_ -- KS
  · rw [exec_hostRead_window hr (regAt_drawn.mpr (by omega)),
      regValue_range (base := 48) s.ks rfl (fun i => by rw [regAt_ks, State.regValue]) (by omega) (by omega)]
  refine eq_next_ite (fun h => ?_) fun h => ?_ -- DIN
  · rw [exec_hostRead_register hr rfl (not_drawn_of_offset (by omega)),
      regValue_range (base := 64) s.din rfl (fun i => by rw [regAt_din, State.regValue]) (by omega) (by omega)]
  refine eq_next_ite (fun h => ?_) fun h => ?_ -- DOUT
  · rw [exec_hostRead_window hr (regAt_drawn.mpr (by omega)),
      regValue_range (base := 80) s.dout rfl (fun i => by rw [regAt_dout, State.regValue]) (by omega) (by omega)]
  exact exec_hostRead_reserved hr (regAt_reserved.mpr (by omega)) x

end Sys2Proof.Machine
end

section
/-! PROOFS. What HOST_WRITE does (R55 to R57, R204, R206). -/

namespace Sys2Proof.Machine

/-- Setting the word at a position that is the index `i` of a window. -/
theorem setIfInBounds_of_eq {n k : Nat} (b : Vector Word n) {i : Fin n} (hk : k = i.val) (v : Word) :
    b.setIfInBounds k v = b.set i v := by
  subst hk
  exact Vector.ext fun j hj => by simp [Vector.getElem_set, Vector.getElem_setIfInBounds]

/-- Outside the frozen registers, only `STATUS` and `IRQEN` store anything (R56, R57). -/
theorem State.store_ignored (s : State) {r : Reg} (hf : r.frozen = false) (hs : r ≠ .status) (hi : r ≠ .irqen) (v : Word) :
    s.store r v = s := by
  cases r with
  | status => exact absurd rfl hs
  | irqen => exact absurd rfl hi
  | id | const _ | ks _ | dout _ | reserved => rfl
  | ctrl | len | key _ | ctr | nonce _ | work _ | din _ => cases hf

/-- A write of a read-only or reserved register is ignored, busy or not, and in reset (R56, R57). -/
theorem exec_hostWrite_ignored {a : BitVec 7} (hf : (regAt a).frozen = false) (hs : a.toNat ≠ 2) (hi : a.toNat ≠ 3)
    (s : State) (v : Word) : exec (.hostWrite a v) s = .next s := by
  rw [exec_hostWrite, hostStore_of_store_ignored hf
    (s.store_ignored hf (mt regAt_eq_status.mp hs) (mt regAt_eq_irqen.mp hi) v)]

/-- A write the freeze does not refuse is the store (R55). -/
theorem exec_hostWrite_open {s : State} {a : BitVec 7} (hr : s.rstLow = false)
    (h : s.pend = none ∨ (regAt a).frozen = false) (v : Word) :
    exec (.hostWrite a v) s = .next (s.store (regAt a) v) := by
  rw [exec_hostWrite, hostStore, if_neg (by simp [hr]), State.write_of_open (h.imp_left State.busy_eq_false.mpr)]

/-- A busy core answers a write of a frozen register with BUSY_WRITE alone (R204). -/
theorem exec_hostWrite_frozen {s : State} {a : BitVec 7} (hr : s.rstLow = false) (hp : s.pend ≠ none)
    (hf : (regAt a).frozen = true) (v : Word) : exec (.hostWrite a v) s = .next (s.withError 4) := by
  rw [exec_hostWrite, hostStore, if_neg (by simp [hr]), State.write_of_frozen (State.busy_eq_true.mpr hp) hf,
    State.raise_eq]
  rfl

/-- The rows of the write table an idle core does not ignore, `STATUS` and `IRQEN` apart (R55). -/
theorem State.store_frozen_eq (s : State) {a : BitVec 7} (hf : (regAt a).frozen = true) (v : Word) :
    let off := 4 * a.toNat
    s.store (regAt a) v =
      if off = 0x004 then s.command v
      else if off = 0x010 then { s with len := v.extractLsb' 0 7 }
      else if off ≤ 0x06C then { s with key := s.key.setIfInBounds ((off - 0x050) / 4) v }
      else if off = 0x070 then { s with ctr := v }
      else if off ≤ 0x07C then { s with nonce := s.nonce.setIfInBounds ((off - 0x074) / 4) v }
      else if off ≤ 0x0BC then { s with work := s.work.setIfInBounds ((off - 0x080) / 4) v }
      else { s with din := s.din.setIfInBounds ((off - 0x100) / 4) v } := by
  have hmap := regAt_frozen.mp hf
  dsimp only
  split -- CTRL
  next h => rw [regAt_eq_ctrl.mpr (by omega)]; rfl
  split -- LEN
  next h => rw [regAt_eq_len.mpr (by omega), ← BitVec.setWidth_eq_extractLsb' (by decide)]; rfl
  split -- KEY
  next h =>
    obtain ⟨i, hi, ha⟩ := addr_eq_base_add (a := a) (base := 20) (n := 8) (by omega) (by omega)
    rw [setIfInBounds_of_eq s.key (i := i) (by omega), ha, regAt_key]; rfl
  split -- CTR
  next h => rw [regAt_eq_ctr.mpr (by omega)]; rfl
  split -- NONCE
  next h =>
    obtain ⟨i, hi, ha⟩ := addr_eq_base_add (a := a) (base := 29) (n := 3) (by omega) (by omega)
    rw [setIfInBounds_of_eq s.nonce (i := i) (by omega), ha, regAt_nonce]; rfl
  split -- STATE
  next h =>
    obtain ⟨i, hi, ha⟩ := addr_eq_base_add (a := a) (base := 32) (n := 16) (by omega) (by omega)
    rw [setIfInBounds_of_eq s.work (i := i) (by omega), ha, regAt_work]; rfl
  next => -- DIN
    obtain ⟨i, hi, ha⟩ := addr_eq_base_add (a := a) (base := 64) (n := 16) (by omega) (by omega)
    rw [setIfInBounds_of_eq s.din (i := i) (by omega), ha, regAt_din]; rfl

/-- Settles O17: `STATUS`, `IRQEN`, the frozen registers of a busy and of an idle core, and the offsets that ignore writes. -/
theorem hostWriteDoes : Obligations.HostWriteDoes := by
  intro s a v hr
  dsimp only
  refine eq_next_ite (fun h => ?_) fun h => ?_ -- STATUS
  · rw [exec_hostWrite_open hr (.inr (not_frozen_of_offset (by omega))), regAt_eq_status.mpr (by omega), State.store,
      State.statusWrite_eq]
  refine eq_next_ite (fun h => ?_) fun h => ?_ -- IRQEN
  · rw [exec_hostWrite_open hr (.inr (not_frozen_of_offset (by omega))), regAt_eq_irqen.mpr (by omega), State.store,
      ← BitVec.setWidth_eq_extractLsb' (by decide)]
    rfl
  refine eq_next_ite (fun h => ?_) fun h => ?_ -- the frozen registers
  · have hf : (regAt a).frozen = true := regAt_frozen.mpr (by omega)
    by_cases hp : s.pend = none
    · rw [if_neg (not_not.mpr hp), exec_hostWrite_open hr (.inl hp), s.store_frozen_eq hf]
    · rw [if_pos hp, exec_hostWrite_frozen hr hp hf]
  exact exec_hostWrite_ignored (not_frozen_of_offset (by omega)) (by omega) (by omega) s v

/-- Settles O18: the offsets R56 lists are those the map reserves. -/
theorem reservedOffsets : Obligations.ReservedOffsets := fun s a x v hr ha =>
  ⟨exec_hostRead_reserved hr (regAt_reserved.mpr (by omega)) x,
    exec_hostWrite_ignored (not_frozen_of_offset (by omega)) (by omega) (by omega) s v⟩

/-- A write transaction depends on its data only through what the register stores of it. -/
theorem exec_hostWrite_congr {s : State} {a : BitVec 7} {v w : Word} (h : s.store (regAt a) v = s.store (regAt a) w) :
    exec (.hostWrite a v) s = exec (.hostWrite a w) s := by
  simp only [exec_hostWrite, hostStore, State.write, h]

/-- Settles O19: read-only registers store nothing, `STATUS` takes two bits, `IRQEN` and `LEN` their field's width. -/
theorem readOnlyWritesIgnored : Obligations.ReadOnlyWritesIgnored := by
  refine ⟨fun s a v ha => ?_, fun s v w h1 h2 => exec_hostWrite_congr ?_, fun s v w h => exec_hostWrite_congr ?_,
    fun s v w h => exec_hostWrite_congr ?_⟩
  · exact exec_hostWrite_ignored (not_frozen_of_offset (by omega)) (by omega) (by omega) s v
  · rw [regAt_eq_status.mpr rfl, State.store, State.store, State.statusWrite_eq, State.statusWrite_eq, h1, h2]
  · rw [← BitVec.setWidth_eq_extractLsb' (by decide), ← BitVec.setWidth_eq_extractLsb' (by decide)] at h
    rw [regAt_eq_irqen.mpr rfl, State.store, State.store, h]
  · rw [← BitVec.setWidth_eq_extractLsb' (by decide), ← BitVec.setWidth_eq_extractLsb' (by decide)] at h
    rw [regAt_eq_len.mpr rfl, State.store, State.store, h]

end Sys2Proof.Machine
end

section
/-! PROOFS. The reserved opcodes (R84), and a word presented to `CTRL` in each mode of the core. -/

namespace Sys2Proof.Machine

/-- The error action is what the statements call `withError` (R205, R213). -/
theorem State.raise_eq_withError (s : State) (c : ErrCode) : s.raise c = s.withError (codeOf c) := s.raise_eq c

/-! ### A word presented to `CTRL`: in reset (R240), busy (R204), idle (R100) -/

theorem hostStore_in_reset {s : State} (hr : s.rstLow = true) (r : Reg) (v : Word) : hostStore r v s = s := if_pos hr

theorem hostStore_ctrl_busy {s : State} (hr : s.rstLow = false) (hp : s.pend ≠ none) (v : Word) :
    hostStore .ctrl v s = s.withError 4 := by
  rw [hostStore, if_neg (by simp [hr]), State.write_of_frozen (State.busy_eq_true.mpr hp) rfl, State.raise_eq_withError,
    codeOf]

theorem hostStore_ctrl_idle {s : State} (hr : s.rstLow = false) (hp : s.pend = none) (v : Word) :
    hostStore .ctrl v s = s.command v := by
  rw [hostStore, if_neg (by simp [hr]), State.write_of_open (.inl (State.busy_eq_false.mpr hp)), State.store]

/-! ### Reserved opcodes -/

/-- No check comes before the opcode's (R100, R211). -/
theorem State.command_reserved {v : Word} (hv : 7 ≤ (opField v).toNat) (s : State) : s.command v = s.withError 1 := by
  rw [State.command, cmdOpOf_eq_none.mpr hv]
  exact s.raise_eq_withError .illegalCmd

/-- A reserved word's presentation raises one error: ILLEGAL_CMD idle, BUSY_WRITE busy (R84, R211). -/
theorem hostStore_ctrl_reserved {s : State} {v : Word} (hr : s.rstLow = false) (hv : 7 ≤ (opField v).toNat) :
    (s.pend = none → hostStore .ctrl v s = s.withError 1) ∧ (s.pend ≠ none → hostStore .ctrl v s = s.withError 4) :=
  ⟨fun hp => by rw [hostStore_ctrl_idle hr hp, State.command_reserved hv], fun hp => hostStore_ctrl_busy hr hp v⟩

/-- Settles O25: both rows present their word, and both opcodes are reserved. -/
theorem reservedOpcodesRaise : Obligations.ReservedOpcodesRaise := by
  intro s op x hr hop
  obtain ⟨hidle7, hbusy7⟩ := hostStore_ctrl_reserved (s := s) (v := cmdWord 0x7 x) hr (by simp)
  obtain ⟨hidle8, hbusy8⟩ := hostStore_ctrl_reserved (s := s) (v := cmdWord op x) hr (by rw [opField_cmdWord]; omega)
  rw [exec_reserved7, exec_reserved8F]
  exact ⟨fun hp => ⟨by rw [hidle7 hp], by rw [hidle8 hp]⟩, fun hp => ⟨by rw [hbusy7 hp], by rw [hbusy8 hp]⟩⟩

end Sys2Proof.Machine
end

section
/-! PROOFS. The fields of a command word under R81's masks, and the bits a command ignores (R85). -/

namespace Sys2Proof.Machine

/-! ### Masks and fields (R81) -/

/-- Words that agree under a mask have the same field, wherever the mask is all ones. -/
theorem extractLsb'_eq_of_and_eq {v w m : Word} {start len : Nat} (h : v &&& m = w &&& m)
    (hm : m.extractLsb' start len = BitVec.allOnes len) : v.extractLsb' start len = w.extractLsb' start len := by
  have hfield := congrArg (BitVec.extractLsb' start len) h
  rwa [BitVec.extractLsb'_and, BitVec.extractLsb'_and, hm, BitVec.and_allOnes, BitVec.and_allOnes] at hfield

theorem opField_eq_of_and_opMask {v w : Word} (h : v &&& 0x0000000F = w &&& 0x0000000F) : opField v = opField w :=
  extractLsb'_eq_of_and_eq h (by decide)

/-- Bits 3:0 in place are the opcode field. -/
theorem and_opMask (v : Word) : v &&& 0x0000000F = (opField v).setWidth 32 := by
  have h := Laws.cmdWord_and_low (opField v) (restField v) (BitVec.allOnes 4)
  rwa [cmdWord_opField_restField, BitVec.and_allOnes] at h

theorem and_opMask_eq_two {v : Word} : v &&& 0x0000000F = 2 ↔ opField v = opcodeOf .qr :=
  ⟨fun h => opField_eq_of_and_opMask (w := 2) h, fun h => by rw [and_opMask, h]; rfl⟩

/-- Bits 19:4 are all that PEND keeps of a word beside the command. -/
theorem pendOf_eq_of_and_mask {v w : Word} (h : v &&& 0x000FFFFF = w &&& 0x000FFFFF) (op : CmdOp) :
    pendOf op v = pendOf op w := by
  have ha : qaField v = qaField w := extractLsb'_eq_of_and_eq h (by decide)
  have hb : qbField v = qbField w := extractLsb'_eq_of_and_eq h (by decide)
  have hc : qcField v = qcField w := extractLsb'_eq_of_and_eq h (by decide)
  have hd : qdField v = qdField w := extractLsb'_eq_of_and_eq h (by decide)
  rw [pendOf, pendOf, ha, hb, hc, hd]

/-! ### A command word's instruction, by its opcode field -/

/-- The instruction of a command's word is the command's turn with that very word (R82, R83). -/
theorem exec_decodeCmd_of_command {op : CmdOp} {v : Word} (ho : opField v = opcodeOf op) (s : State) :
    exec (decodeCmd v) s = commandTurn op v (pendOf op v).effect s := by
  have hv : cmdWord (opcodeOf op) (restField v) = v := ho ▸ cmdWord_opField_restField v
  have hturn := congrArg (commandTurn op · (pendOf op v).effect s) hv
  unfold decodeCmd
  rw [ho]
  cases op with
  | qr => rw [← restOf_fields] at hturn; exact hturn
  | nop | load | dround | block | next | crypt => exact hturn

/-- The instruction of a reserved word presents that very word (R84). -/
theorem exec_decodeCmd_of_reserved {v : Word} (hv : 7 ≤ (opField v).toNat) (s : State) :
    exec (decodeCmd v) s = .next (hostStore .ctrl v s) := by
  have hword := cmdWord_opField_restField v
  unfold decodeCmd
  split
  case h_8 h7 =>
    rw [show opField v = 7 from BitVec.eq_of_toNat_eq h7] at hword
    rw [exec_reserved7, hword]
  case h_9 => rw [exec_reserved8F, hword]
  all_goals omega -- the seven commands: their opcodes are below 7

/-! ### Ignored bits (R85) -/

/-- `t` and `u`, reached by two words with the opcode of `v`, are the same but for PEND's index fields, which have a
meaning for QR alone (R37). -/
structure SameEffect (v : Word) (t u : State) : Prop where
  rest : { t with pend := none } = { u with pend := none }
  op : t.pend.map Pend.op = u.pend.map Pend.op
  pend : opField v = opcodeOf .qr → t.pend = u.pend

theorem SameEffect.refl (v : Word) (t : State) : SameEffect v t t := ⟨rfl, rfl, fun _ => rfl⟩

theorem SameEffect.accept {v w : Word} {op : CmdOp} (hqr : opField v = opcodeOf .qr → pendOf op v = pendOf op w)
    (s : State) : SameEffect v (s.accept (pendOf op v)) (s.accept (pendOf op w)) :=
  ⟨rfl, rfl, fun h => congrArg some (hqr h)⟩

section

/-! Two words of one opcode, and for QR with the same index fields. -/

variable {v w : Word} (hqr : opField v = opcodeOf .qr → ∀ op, pendOf op v = pendOf op w)
include hqr

/-- PEND holds both words or neither. -/
theorem State.holds_eq {op : CmdOp} (ho : opField v = opcodeOf op) (s : State) : s.holds op v = s.holds op w := by
  unfold State.holds
  cases op with
  | qr => rw [hqr ho]
  | nop | load | dround | block | next | crypt => rfl

/-- Of a word's index fields, only QR's completion reads any. -/
theorem effect_pendOf_eq {op : CmdOp} (ho : opField v = opcodeOf op) : (pendOf op v).effect = (pendOf op w).effect := by
  cases op with
  | qr => rw [hqr ho]
  | nop | load | dround | block | next | crypt => rfl

variable (hop : opField v = opField w)
include hop

/-- Acceptance's checks read only the opcode, LEN, and a QR's index fields (R100). -/
theorem State.command_sameEffect (s : State) : SameEffect v (s.command v) (s.command w) := by
  unfold State.command
  rw [← hop]
  cases hc : cmdOpOf (opField v) with
  | none => exact .refl v _
  | some op =>
    have ho : opField v = opcodeOf op := cmdOpOf_eq_some.mp hc
    have hdistinct : (op = .qr ∧ distinct4 (qaField v) (qbField v) (qcField v) (qdField v) = false) ↔
        (op = .qr ∧ distinct4 (qaField w) (qbField w) (qcField w) (qdField w) = false) :=
      and_congr_right fun h =>
        iff_of_eq (congrArg (fun p : Pend => distinct4 p.qa p.qb p.qc p.qd = false) (hqr (h ▸ ho) op))
    simp only [hdistinct]
    split_ifs
    · exact .refl v _
    · exact .refl v _
    · exact .accept (fun h => hqr h op) s

theorem hostStore_ctrl_sameEffect (s : State) : SameEffect v (hostStore .ctrl v s) (hostStore .ctrl w s) := by
  cases hr : s.rstLow with
  | true =>
    rw [hostStore_in_reset hr, hostStore_in_reset hr]
    exact .refl v s
  | false =>
    by_cases hp : s.pend = none
    · rw [hostStore_ctrl_idle hr hp, hostStore_ctrl_idle hr hp]
      exact s.command_sameEffect hqr hop
    · rw [hostStore_ctrl_busy hr hp, hostStore_ctrl_busy hr hp]
      exact .refl v _

/-- Both words' instructions complete the pending command, or both present their word. -/
theorem exec_decodeCmd_sameEffect (s : State) :
    ∃ t u, exec (decodeCmd v) s = .next t ∧ exec (decodeCmd w) s = .next u ∧ SameEffect v t u := by
  have hstore := hostStore_ctrl_sameEffect hqr hop s
  cases hc : cmdOpOf (opField v) with
  | none =>
    have hv : 7 ≤ (opField v).toNat := cmdOpOf_eq_none.mp hc
    exact ⟨_, _, exec_decodeCmd_of_reserved hv s, exec_decodeCmd_of_reserved (hop ▸ hv) s, hstore⟩
  | some op =>
    have ho : opField v = opcodeOf op := cmdOpOf_eq_some.mp hc
    rw [exec_decodeCmd_of_command ho, exec_decodeCmd_of_command (hop ▸ ho), ← effect_pendOf_eq hqr ho]
    unfold commandTurn
    rw [← State.holds_eq hqr ho]
    split_ifs
    · exact ⟨_, _, rfl, rfl, .refl v _⟩
    · exact ⟨_, _, rfl, rfl, hstore⟩

end

/-- Settles O5: the masks give the opcode field and a QR's index fields, and no other bit of a word has an effect. -/
theorem ignoredBitsDoNotMatter : Obligations.IgnoredBitsDoNotMatter := by
  intro v w s hmask hmaskQr
  obtain ⟨t, u, ht, hu, hrest, hop, hpend⟩ := exec_decodeCmd_sameEffect
    (fun h op => pendOf_eq_of_and_mask (hmaskQr (and_opMask_eq_two.mpr h)) op) (opField_eq_of_and_opMask hmask) s
  exact ⟨t, u, ht, hu, hrest, hop, fun h => hpend (and_opMask_eq_two.mp h)⟩

end Sys2Proof.Machine
end

section
/-! PROOFS. Acceptance: the checks of a word presented to an idle core (R100). -/

namespace Sys2Proof.Machine

/-- The index check fails exactly when one of the six pairs is equal (R100, R203). -/
theorem distinct4_eq_false {a b c d : BitVec 4} :
    distinct4 a b c d = false ↔ a = b ∨ a = c ∨ a = d ∨ b = c ∨ b = d ∨ c = d := by
  simp only [distinct4, Bool.and_eq_false_iff, bne_eq_false_iff_eq, or_assoc]

/-- Past the opcode's check, a command meets those of LEN and of the indices, in that order (R100, R211). -/
theorem State.command_of_opcode {v : Word} {op : CmdOp} (ho : opField v = opcodeOf op) (s : State) :
    s.command v =
      if op = .crypt ∧ 64 < s.len.toNat then s.withError 2
      else if op = .qr ∧ distinct4 (qaField v) (qbField v) (qcField v) (qdField v) = false then s.withError 3
      else s.accept (pendOf op v) := by
  rw [State.command, ho, cmdOpOf_opcodeOf]
  simp only [State.raise_eq_withError, codeOf]

/-- Settles O24: an idle core's `CTRL` write is `Command(v)`, which the opcode's check splits into refusal and command. -/
theorem ctrlWriteValidates : Obligations.CtrlWriteValidates := by
  intro s v hs
  obtain ⟨hr, hp⟩ := hs
  have hwrite : exec (.hostWrite 1 v) s = .next (s.command v) := by
    rw [exec_hostWrite, regAt_eq_ctrl.mpr rfl, hostStore_ctrl_idle hr hp]
  rw [hwrite]
  change _ = Host.Outcome.next (match cmdOpOf (opField v) with | none => _ | some _ => _)
  cases hc : cmdOpOf (opField v) with
  | none => rw [State.command_reserved (cmdOpOf_eq_none.mp hc)]
  | some op =>
    rw [State.command_of_opcode (cmdOpOf_eq_some.mp hc)]
    simp only [distinct4_eq_false]
    rfl

end Sys2Proof.Machine
end

section
/-! PROOFS. The mixer's rotation is the rotation of a 32-bit word (R10, R120). -/

namespace Sys2Proof.Machine

/-- The two shifts of `rotl32` are a rotation, within the bound under which R10 defines it. -/
theorem rotl32_eq_rotateLeft (x : Word) {n : Nat} (bound : 0 < n ∧ n < 32) : rotl32 x n bound = x.rotateLeft n := by
  rw [BitVec.rotateLeft_eq_rotateLeftAux_of_lt bound.2]
  rfl

/-- Settles O37: once its rotations are those of a 32-bit word, the mixer is the source's four lines. -/
theorem quarterRoundSequence : Obligations.QuarterRoundSequence := by
  intro a b c d
  simp only [qround, rotl32_eq_rotateLeft]

end Sys2Proof.Machine
end

section
/-! PROOFS. The initial state, position by position (R140), and its window read by the host (R53). -/

namespace Sys2Proof.Machine

/-! ### The words of the initial state, by where they come from -/

theorem State.initState_const (s : State) :
    (s.initState[0], s.initState[1], s.initState[2], s.initState[3]) =
      (cipherConst[0], cipherConst[1], cipherConst[2], cipherConst[3]) := rfl

theorem State.initState_key (s : State) (i : Fin 8) : s.initState.toList.getD (4 + i.val) 0 = s.key[i] := by
  fin_cases i <;> rfl

@[simp] theorem State.initState_ctr (s : State) : s.initState[12] = s.ctr := rfl

theorem State.initState_nonce (s : State) (i : Fin 3) : s.initState.toList.getD (13 + i.val) 0 = s.nonce[i] := by
  fin_cases i <;> rfl

/-- The window of the constants and the parameters is never drawn, so a busy core's read returns it too (R53, R54). -/
theorem exec_hostRead_initState {s : State} (hr : s.rstLow = false) (i : Fin 16) (x : Word) :
    exec (.hostRead (BitVec.ofNat 7 (16 + i.val)) x) s = .next { s with busRdata := s.initState[i] } := by
  have haddr : (BitVec.ofNat 7 (16 + i.val)).toNat = 16 + i.val := Nat.mod_eq_of_lt (by omega)
  rw [exec_hostRead_register hr rfl (not_drawn_of_offset (by omega)), State.regValue_initState]

/-- Settles O16: the words by their four sources, and the window's read. -/
theorem initialStateOrder : Obligations.InitialStateOrder := fun s =>
  ⟨s.initState_const, s.initState_key, s.initState_ctr, s.initState_nonce,
    fun hr i => ⟨_, exec_hostRead_initState hr i 0, rfl⟩⟩

end Sys2Proof.Machine
end

section
/-! PROOFS. The two writes 60_exceptions.md singles out: the refused write of a busy core (R204), and the STATUS write, which
is never refused (R206). -/

namespace Sys2Proof.Machine

/-- Settles O20: the offsets R204 lists are those of the frozen registers, whose write a busy core answers with the error
alone. -/
theorem busyWriteRefused : Obligations.BusyWriteRefused := fun _ _ v hr hp ha =>
  exec_hostWrite_frozen hr hp (regAt_frozen.mpr (by omega)) v

/-- A STATUS write keeps a flag where its clear bit is 0 (R206). -/
theorem State.statusWrite_eq_masked (s : State) (v : Word) :
    s.statusWrite v =
      { s with
        done := s.done && !(v.getLsbD 1)
        err := s.err && !(v.getLsbD 2)
        errcode := if v.getLsbD 2 = true then 0 else s.errcode } := by
  rw [State.statusWrite_eq]
  cases v.getLsbD 1 <;> cases v.getLsbD 2 <;> simp

/-- Settles O21: `STATUS` is not frozen, so its write is the store in either mode of the core. -/
theorem statusWriteClears : Obligations.StatusWriteClears := fun s v hr => by
  have hopen : (regAt 2).frozen = false := rfl
  rw [exec_hostWrite_open hr (.inr hopen), regAt_eq_status.mpr rfl, State.store, State.statusWrite_eq_masked]

end Sys2Proof.Machine
end

section
/-! PROOFS. Encoding and decoding are inverse on well-formed instructions (R80 to R87). -/

namespace Sys2Proof.Machine

/-! ### The row an opcode selects -/

/-- Bit 3 of the opcode selects the row RESERVED_8_F, whatever the other bits (R83). -/
theorem decodeCmd_of_high {v : Word} (h : 8 ≤ (opField v).toNat) :
    decodeCmd v = .reserved8F (opField v) (restField v) := by
  unfold decodeCmd
  split
  case h_9 => rfl
  all_goals omega -- the named rows' opcodes are below 8

/-- A word's instruction is an encoded one whose command word is that word (R81 to R83). -/
theorem decodeCmd_encodes (v : Word) : (decodeCmd v).wellFormed = true ∧ encode (decodeCmd v) = .cmd v := by
  have hword := cmdWord_opField_restField v
  have hrow : ∀ op : BitVec 4, (opField v).toNat = op.toNat → Frame.cmd (cmdWord op (restField v)) = .cmd v :=
    fun op h => by rw [← BitVec.eq_of_toNat_eq h, hword]
  unfold decodeCmd
  split
  case h_1 h => exact ⟨rfl, hrow 0 h⟩
  case h_2 h => exact ⟨rfl, hrow 1 h⟩
  case h_3 h => exact ⟨rfl, by rw [encode, restOf_fields]; exact hrow 2 h⟩
  case h_4 h => exact ⟨rfl, hrow 3 h⟩
  case h_5 h => exact ⟨rfl, hrow 4 h⟩
  case h_6 h => exact ⟨rfl, hrow 5 h⟩
  case h_7 h => exact ⟨rfl, hrow 6 h⟩
  case h_8 h => exact ⟨rfl, hrow 7 h⟩
  case h_9 =>
    simp only [imp_false] at *
    exact ⟨decide_eq_true (by omega), hrow _ rfl⟩

/-- A transaction's instruction keeps all its bits (R80). -/
theorem decodeBus_encodes (tx : BitVec 40) : (decodeBus tx).wellFormed = true ∧ encode (decodeBus tx) = .bus tx := by
  have hword := busWord_fields tx
  unfold decodeBus
  split_ifs with hwe
  · exact ⟨rfl, congrArg Frame.bus (hwe ▸ hword)⟩
  · exact ⟨rfl, congrArg Frame.bus (Bool.eq_false_of_not_eq_true hwe ▸ hword)⟩

/-! ### Frames -/

theorem decodeFrame_encodes (f : Frame) : (decodeFrame f).wellFormed = true ∧ encode (decodeFrame f) = f := by
  cases f with
  | bus tx => exact decodeBus_encodes tx
  | cmd v => exact decodeCmd_encodes v

/-- The frame of a well-formed instruction decodes to it. -/
theorem decodeFrame_encode {i : Instr} (hi : i.wellFormed = true) : decodeFrame (encode i) = i := by
  cases i with
  | hostRead a x => exact decodeBus_read a x
  | hostWrite a v => exact decodeBus_write a v
  | reserved8F op x =>
    have hop : 8 ≤ op.toNat := of_decide_eq_true hi
    rw [encode, decodeFrame, decodeCmd_of_high (by rwa [opField_cmdWord]), opField_cmdWord, restField_cmdWord]
  | qr a b c d x => simp [encode, decodeFrame, decodeCmd]
  | nop x | load x | dround x | block x | next x | crypt x | reserved7 x => simp [encode, decodeFrame, decodeCmd]

/-! ### Bytes (log 6) -/

/-- The bytes of a concatenation, from the least significant end. -/
theorem append_bytes {n : Nat} (x : BitVec n) (b2 b1 b0 : Byte) :
    (x ++ b2 ++ b1 ++ b0).extractLsb' 0 8 = b0 ∧ (x ++ b2 ++ b1 ++ b0).extractLsb' 8 8 = b1 ∧
      (x ++ b2 ++ b1 ++ b0).extractLsb' 16 8 = b2 ∧
      ∀ k, (x ++ b2 ++ b1 ++ b0).extractLsb' (24 + k) 8 = x.extractLsb' k 8 := by
  refine ⟨BitVec.extractLsb'_append_eq_right, ?_, ?_, fun k => ?_⟩
  · simp [BitVec.extractLsb'_append_eq_of_le, BitVec.extractLsb'_append_eq_of_add_le]
  · simp [BitVec.extractLsb'_append_eq_of_le, BitVec.extractLsb'_append_eq_of_add_le]
  · iterate 3 rw [BitVec.extractLsb'_append_eq_of_le (by omega)]
    rw [show 24 + k - 8 - 8 - 8 = k by omega]

/-- Whatever bytes make a frame are that frame's bytes. -/
theorem frameBytes_of_frameOfBytes {bytes : List Byte} {f : Frame} (h : frameOfBytes bytes = some f) :
    frameBytes f = bytes := by
  unfold frameOfBytes at h
  split at h
  case h_1 b0 b1 b2 b3 =>
    cases h
    obtain ⟨h0, h1, h2, htop⟩ := append_bytes b3 b2 b1 b0
    have h3 := (htop 0).trans BitVec.extractLsb'_eq_self
    simp only [frameBytes, List.cons.injEq, and_true]
    exact ⟨h0, h1, h2, h3⟩
  case h_2 b0 b1 b2 b3 b4 =>
    cases h
    obtain ⟨h0, h1, h2, htop⟩ := append_bytes (b4 ++ b3) b2 b1 b0
    have h3 := (htop 0).trans BitVec.extractLsb'_append_eq_right
    have h4 := (htop 8).trans BitVec.extractLsb'_append_eq_left
    simp only [frameBytes, List.cons.injEq, and_true]
    exact ⟨h0, h1, h2, h3, h4⟩
  case h_3 => cases h

theorem decode_eq_ok {bytes : List Byte} {i : Instr} (h : decode bytes = .ok i) :
    ∃ f, frameOfBytes bytes = some f ∧ i = decodeFrame f := by
  unfold decode at h
  split at h
  · cases h; exact ⟨_, ‹_›, rfl⟩
  · cases h

/-- Settles O2: a frame's bytes decode as the frame, and the frame of a well-formed instruction decodes to it. -/
theorem decodeOfEncode : Obligations.DecodeOfEncode := by
  intro i hi
  rw [encodeBytes, decode_frameBytes, decodeFrame_encode hi]

/-- Settles O3: bytes that decode make a frame, whose instruction is well formed and encodes as it. -/
theorem encodeOfDecode : Obligations.EncodeOfDecode := by
  intro bytes i h
  obtain ⟨f, hf, rfl⟩ := decode_eq_ok h
  obtain ⟨hwf, henc⟩ := decodeFrame_encodes f
  exact ⟨hwf, by rw [encodeBytes, henc, frameBytes_of_frameOfBytes hf]⟩

/-- Settles O4: the mask gives the opcode field, which is all the decoder's choice of row reads. -/
theorem opcodeFieldSelectsRow : Obligations.OpcodeFieldSelectsRow := by
  intro v
  have hop : ∀ k : Word, v &&& 0x0000000F = k → k &&& 0x0000000F = k → opField v = opField k := fun k hv hk =>
    opField_eq_of_and_opMask (hv.trans hk.symm)
  refine ⟨fun h => ?_, fun h => ?_, fun h => ?_, fun h => ?_, fun h => ?_, fun h => ?_, fun h => ?_, fun h => ?_,
    fun h => ?_⟩
  case refine_9 =>
    have hfield : (v &&& 0x0000000F).setWidth 4 = opField v := by
      rw [and_opMask, BitVec.setWidth_setWidth_of_le _ (by decide), BitVec.setWidth_eq]
    have hhigh : 8 ≤ (opField v).toNat := by
      rw [and_opMask, BitVec.toNat_setWidth] at h
      omega
    exact ⟨opField v, restField v, hfield.symm, decodeCmd_of_high hhigh⟩
  case refine_3 => unfold decodeCmd; rw [hop 2 h rfl]; exact ⟨_, _, _, _, _, rfl⟩
  all_goals unfold decodeCmd; rw [hop _ h rfl]; exact ⟨_, rfl⟩

/-- Settles O1: the thirteen words, evaluated. -/
theorem specWordsDecode : Obligations.SpecWordsDecode := by
  unfold Obligations.SpecWordsDecode
  decide

end Sys2Proof.Machine
end

section
/-! PROOFS. The invariant of every reachable state, kept by each operation a step can perform (R26, R100, R102, R200, R240). -/

namespace Sys2Proof.Machine

/-! ### Operations on the model's own fields -/

theorem State.Inv.setRead {s : State} (h : s.Inv) (v : Word) (n : Nat) : (s.setRead v n).Inv :=
  ⟨h.errcode_iff, h.errcode_le, h.pend_done, h.pend_qr, h.pend_crypt, h.in_reset⟩

theorem State.Inv.setSchedule {s : State} (h : s.Inv) (l : List Event) : (s.setSchedule l).Inv :=
  ⟨h.errcode_iff, h.errcode_le, h.pend_done, h.pend_qr, h.pend_crypt, h.in_reset⟩

/-! ### Operations of a core out of reset -/

theorem State.raise_err (s : State) (c : ErrCode) : (s.raise c).err = true := by rw [State.raise_eq]

theorem State.raise_errcode (s : State) (c : ErrCode) :
    (s.raise c).errcode = if s.err = true then s.errcode else codeOf c := by rw [State.raise_eq]

/-- An error's code is one of R200's, which are 1 to 4, whether it is the first or a later one. -/
theorem State.Inv.raise {s : State} (h : s.Inv) (hr : s.rstLow = false) (c : ErrCode) : (s.raise c).Inv := by
  have hcode : (s.raise c).errcode ≠ 0 ∧ (s.raise c).errcode.toNat ≤ 4 := by
    rw [State.raise_errcode]
    split_ifs with he
    · exact ⟨fun h0 => by simp [h.errcode_iff.mpr h0] at he, h.errcode_le⟩
    · cases c <;> decide
  have herr := s.raise_err c
  rw [State.raise_eq] at *
  exact
    { errcode_iff := by simpa using hcode.1
      errcode_le := hcode.2
      pend_done := h.pend_done
      pend_qr := h.pend_qr
      pend_crypt := h.pend_crypt
      in_reset := fun hlow => by simp [hr] at hlow }

/-- A STATUS write clears ERR and ERRCODE together (R206). -/
theorem State.Inv.statusWrite {s : State} (h : s.Inv) (hr : s.rstLow = false) (v : Word) : (s.statusWrite v).Inv := by
  rw [State.statusWrite_eq]
  exact
    { errcode_iff := by
        dsimp only
        split_ifs
        exacts [⟨fun _ => rfl, fun _ => rfl⟩, h.errcode_iff]
      errcode_le := by
        dsimp only
        split_ifs
        exacts [by decide, h.errcode_le]
      pend_done := fun hp => by simp [h.pend_done hp]
      pend_qr := h.pend_qr
      pend_crypt := h.pend_crypt
      in_reset := fun hlow => by simp [hr] at hlow }

/-- A command is accepted with its checks passed and DONE cleared (R100). -/
theorem State.Inv.accept {s : State} (h : s.Inv) (hr : s.rstLow = false) {p : Pend}
    (hq : p.op = .qr → distinct4 p.qa p.qb p.qc p.qd = true) (hl : p.op = .crypt → s.len.toNat ≤ 64) :
    (s.accept p).Inv where
  errcode_iff := h.errcode_iff
  errcode_le := h.errcode_le
  pend_done _ := rfl
  pend_qr q hp := Option.some.inj hp ▸ hq
  pend_crypt q hp := Option.some.inj hp ▸ hl
  in_reset hlow := by simp [State.accept, hr] at hlow

theorem State.Inv.command {s : State} (h : s.Inv) (hr : s.rstLow = false) (v : Word) : (s.command v).Inv := by
  rcases s.command_cases v with ⟨-, hc⟩ | ⟨-, -, hc⟩ | ⟨-, -, hc⟩ | ⟨op, -, hl, hq, hc⟩
  · exact hc ▸ h.raise hr _
  · exact hc ▸ h.raise hr _
  · exact hc ▸ h.raise hr _
  · exact hc ▸ h.accept hr hq hl

/-- A store the freeze does not refuse: LEN in particular is stored only while nothing is pending (R102). -/
theorem State.Inv.store {s : State} (h : s.Inv) (hr : s.rstLow = false) {r : Reg}
    (hopen : s.busy = false ∨ r.frozen = false) (v : Word) : (s.store r v).Inv := by
  have hout : ∀ t : State, t.rstLow = s.rstLow → t.rstLow = true → t.registersReset := fun t ht hlow => by
    rw [ht, hr] at hlow; cases hlow
  cases r with
  | ctrl => exact h.command hr v
  | status => exact h.statusWrite hr v
  | len =>
    have hp : s.pend = none := State.busy_eq_false.mp (hopen.resolve_right (by decide))
    exact ⟨h.errcode_iff, h.errcode_le, h.pend_done, h.pend_qr, fun p hs => by simp [State.store, hp] at hs, hout _ rfl⟩
  | irqen | key _ | ctr | nonce _ | work _ | din _ =>
    exact ⟨h.errcode_iff, h.errcode_le, h.pend_done, h.pend_qr, h.pend_crypt, hout _ rfl⟩
  | id | const _ | ks _ | dout _ | reserved => exact h

theorem State.Inv.hostStore {s : State} (h : s.Inv) (r : Reg) (v : Word) : (hostStore r v s).Inv := by
  rcases hostStore_cases s r v with ⟨-, hs⟩ | ⟨hr, -, -, hs⟩ | ⟨hr, hopen, hs⟩
  · rw [hs]; exact h
  · exact hs ▸ h.raise hr _
  · exact hs ▸ h.store hr hopen v

/-- Completion leaves nothing pending and the error as it was (R103). -/
theorem State.Inv.complete {s : State} (h : s.Inv) (hr : s.rstLow = false) (p : Pend) : (p.effect s).finish.Inv := by
  obtain ⟨-, herr, hcode, -, -, -, -, -, -, hlow, -, -, -⟩ := p.effect_frame s
  exact
    { errcode_iff := by simpa [State.finish, herr, hcode] using h.errcode_iff
      errcode_le := by simpa [State.finish, hcode] using h.errcode_le
      pend_done := fun hp => by simp [State.finish] at hp
      pend_qr := fun q hp => by simp [State.finish] at hp
      pend_crypt := fun q hp => by simp [State.finish] at hp
      in_reset := fun hl => by simp [State.finish, hlow, hr] at hl }

/-! ### Reset (R240) -/

/-- Settles O57: every field of the reset state is its reset value. -/
theorem resetMeetsInvariant : Obligations.ResetMeetsInvariant where
  errcode_iff := by decide
  errcode_le := by decide
  pend_done hp := by cases hp
  pend_qr p hp := by cases hp
  pend_crypt p hp := by cases hp
  in_reset hlow := by cases hlow

theorem State.Inv.driveReset {s : State} (h : s.Inv) (low : Bool) : (s.driveReset low).Inv := by
  cases low with
  | true =>
    have hi := resetMeetsInvariant
    exact ⟨hi.errcode_iff, hi.errcode_le, hi.pend_done, hi.pend_qr, hi.pend_crypt, fun _ => rfl⟩
  | false =>
    exact ⟨h.errcode_iff, h.errcode_le, h.pend_done, h.pend_qr, h.pend_crypt, fun hlow => by cases hlow⟩

/-- Settles O58: each of the things a step can do keeps the invariant. -/
theorem stepKeepsInvariant : Obligations.StepKeepsInvariant := by
  intro s t h hstep
  have hu : (s.setSchedule s.schedule.tail).Inv := h.setSchedule _
  rcases step_cases hstep with ⟨v, n, rfl⟩ | ⟨a, v, -, rfl⟩ | ⟨-, v, rfl⟩ | ⟨p, hr, -, rfl⟩ | ⟨-, rfl⟩ |
    ⟨low, rest, -, rfl⟩
  · exact hu.setRead v n
  · exact hu.hostStore (regAt a) v
  · exact hu.hostStore .ctrl v
  · exact hu.complete hr p
  · exact hu
  · exact (h.setSchedule rest).driveReset low

end Sys2Proof.Machine
end

section
/-! PROOFS. What an instruction can do: the frame of a write, and the writers of each register (R28 to R37). -/

namespace Sys2Proof.Machine

/-! ### What a write can do -/

/-- All that a write can be: ignored, an error (BUSY_WRITE only for a frozen register of a busy core), the acceptance of a
command, a STATUS write, or the store of another register. -/
theorem hostStore_outcomes (r : Reg) (v : Word) (s : State) :
    hostStore r v s = s ∨
    (∃ c, (c = .busyWrite → s.busy = true ∧ r.frozen = true) ∧ hostStore r v s = s.raise c) ∨
    (r = .ctrl ∧ ∃ p, hostStore r v s = s.accept p) ∨
    (r = .status ∧ hostStore r v s = s.statusWrite v) ∨
    (r ≠ .ctrl ∧ r ≠ .status ∧ hostStore r v s = s.store r v) := by
  rcases hostStore_cases s r v with ⟨-, h⟩ | ⟨-, hb, hf, h⟩ | ⟨-, -, h⟩
  · exact .inl h
  · exact .inr (.inl ⟨.busyWrite, fun _ => ⟨hb, hf⟩, h⟩)
  · by_cases hctrl : r = .ctrl
    · subst hctrl
      rcases s.command_cases v with ⟨-, hc⟩ | ⟨-, -, hc⟩ | ⟨-, -, hc⟩ | ⟨op, -, -, -, hc⟩
      · exact .inr (.inl ⟨.illegalCmd, nofun, h.trans hc⟩)
      · exact .inr (.inl ⟨.badLen, nofun, h.trans hc⟩)
      · exact .inr (.inl ⟨.badQrIndex, nofun, h.trans hc⟩)
      · exact .inr (.inr (.inl ⟨rfl, _, h.trans hc⟩))
    · by_cases hstatus : r = .status
      · subst hstatus
        exact .inr (.inr (.inr (.inl ⟨rfl, h⟩)))
      · exact .inr (.inr (.inr (.inr ⟨hctrl, hstatus, h⟩)))

/-- No write changes the results, the reset line or the schedule: a word presented to `CTRL` included. -/
theorem hostStore_frame (r : Reg) (v : Word) (s : State) :
    (hostStore r v s).ks = s.ks ∧ (hostStore r v s).dout = s.dout ∧ (hostStore r v s).rstLow = s.rstLow ∧
      (hostStore r v s).schedule = s.schedule := by
  rcases hostStore_outcomes r v s with h | ⟨c, -, h⟩ | ⟨-, p, h⟩ | ⟨-, h⟩ | ⟨hctrl, -, h⟩
  · simp [h]
  · simp [h, State.raise_eq]
  · simp [h, State.accept]
  · simp [h, State.statusWrite_eq]
  · obtain ⟨-, hks, hdout, hlow, -, -, hsched⟩ := s.store_frame v hctrl
    simp [h, hks, hdout, hlow, hsched]

/-- A write of any register but `CTR` leaves `CTR`. -/
theorem hostStore_ctr {r : Reg} (hr : r ≠ .ctr) (v : Word) (s : State) : (hostStore r v s).ctr = s.ctr := by
  rcases hostStore_outcomes r v s with h | ⟨c, -, h⟩ | ⟨-, p, h⟩ | ⟨-, h⟩ | ⟨hctrl, hstatus, h⟩
  · rw [h]
  · rw [h, State.raise_eq]
  · rw [h, State.accept_eq]
  · rw [h, State.statusWrite_eq]
  · rw [h]
    cases r with
    | ctrl => exact absurd rfl hctrl
    | status => exact absurd rfl hstatus
    | ctr => exact absurd rfl hr
    | _ => rfl

/-- A word presented to `CTRL` leaves the parameters. -/
theorem hostStore_ctrl_parameters (v : Word) (s : State) :
    (hostStore .ctrl v s).key = s.key ∧ (hostStore .ctrl v s).nonce = s.nonce ∧ (hostStore .ctrl v s).din = s.din ∧
      (hostStore .ctrl v s).len = s.len ∧ (hostStore .ctrl v s).irqen = s.irqen := by
  rcases hostStore_outcomes .ctrl v s with h | ⟨c, -, h⟩ | ⟨-, p, h⟩ | ⟨hne, -⟩ | ⟨hne, -⟩
  · simp [h]
  · simp [h, State.raise_eq]
  · simp [h, State.accept]
  · cases hne
  · exact absurd rfl hne

/-! ### The command an instruction is -/

theorem cmdOpOfInstr_block {i : Instr} (h : cmdOpOfInstr i = some .block) : ∃ x, i = .block x := by
  cases i <;> simp_all [cmdOpOfInstr]

theorem cmdOpOfInstr_next {i : Instr} (h : cmdOpOfInstr i = some .next) : ∃ x, i = .next x := by
  cases i <;> simp_all [cmdOpOfInstr]

theorem cmdOpOfInstr_crypt {i : Instr} (h : cmdOpOfInstr i = some .crypt) : ∃ x, i = .crypt x := by
  cases i <;> simp_all [cmdOpOfInstr]

/-! ### Totality and frames -/

/-- All that an instruction's next state can be. -/
theorem exec_next_cases {i : Instr} {s t : State} (h : exec i s = .next t) :
    (∃ v n, t = s.setRead v n) ∨ (∃ a v, i = .hostWrite a v ∧ t = hostStore (regAt a) v s) ∨
    (∃ v, t = hostStore .ctrl v s) ∨
    (∃ p, s.pend = some p ∧ cmdOpOfInstr i = some p.op ∧ t = (p.effect s).finish) := by
  rcases exec_cases i s with ⟨a, x, rfl⟩ | ⟨a, v, hi, he⟩ | ⟨v, he⟩ | ⟨-, p, hp, hi, he⟩
  · obtain ⟨v, n, he⟩ := exec_hostRead_eq a x s
    exact .inl ⟨v, n, Host.Outcome.next.inj (h.symm.trans he)⟩
  · exact .inr (.inl ⟨a, v, hi, Host.Outcome.next.inj (h.symm.trans he)⟩)
  · exact .inr (.inr (.inl ⟨v, Host.Outcome.next.inj (h.symm.trans he)⟩))
  · exact .inr (.inr (.inr ⟨p, hp, hi, Host.Outcome.next.inj (h.symm.trans he)⟩))

/-- Settles O12: a read, a write, a presentation and a completion each answer a next state. -/
theorem execAlwaysAnswersNext : Obligations.ExecAlwaysAnswersNext := by
  intro i s
  rcases exec_cases i s with ⟨a, x, rfl⟩ | ⟨a, v, -, he⟩ | ⟨v, he⟩ | ⟨-, p, -, -, he⟩
  · obtain ⟨v, n, he⟩ := exec_hostRead_eq a x s
    exact ⟨_, he⟩
  all_goals exact ⟨_, he⟩

/-- Settles O22: of the four, only a HOST_WRITE's store reaches a parameter, and none reaches `rst_n` or the schedule. -/
theorem onlyHostWritesParameters : Obligations.OnlyHostWritesParameters := by
  intro i s t h
  rcases exec_next_cases h with ⟨v, n, rfl⟩ | ⟨a, v, hi, rfl⟩ | ⟨v, rfl⟩ | ⟨p, -, -, rfl⟩
  · exact ⟨rfl, rfl, .inr ⟨rfl, rfl, rfl, rfl, rfl⟩⟩
  · obtain ⟨-, -, hlow, hsched⟩ := hostStore_frame (regAt a) v s
    exact ⟨hlow, hsched, .inl ⟨a, v, hi⟩⟩
  · obtain ⟨-, -, hlow, hsched⟩ := hostStore_frame .ctrl v s
    exact ⟨hlow, hsched, .inr (hostStore_ctrl_parameters v s)⟩
  · obtain ⟨-, -, -, hirqen, hlen, hkey, hnonce, hdin, -, hlow, -, -, hsched⟩ := p.effect_frame s
    exact ⟨hlow, hsched, .inr ⟨hkey, hnonce, hdin, hlen, hirqen⟩⟩

/-- CRYPT with LEN 0 (R172, D18). -/
theorem cryptEffect_of_empty {s : State} (h : s.len = 0) : cryptEffect s = s := if_pos h

/-- Which of `KS`, `DOUT` and `CTR` a completion can change, by its command (40_command_protocol.md section 5). -/
theorem Pend.effect_results (p : Pend) (s : State) :
    ((p.effect s).ks ≠ s.ks → p.op = .block ∨ p.op = .next ∨ (p.op = .crypt ∧ s.len ≠ 0)) ∧
    ((p.effect s).dout ≠ s.dout → p.op = .crypt ∧ s.len ≠ 0) ∧
    ((p.effect s).ctr ≠ s.ctr → (p.effect s).ctr = s.ctr + 1 ∧ (p.op = .next ∨ (p.op = .crypt ∧ s.len ≠ 0))) := by
  obtain ⟨op, a, b, c, d⟩ := p
  cases op
  case nop => simp [Pend.effect, nopEffect]
  case load => simp [Pend.effect, loadEffect]
  case qr => simp [Pend.effect, qrEffect]
  case dround => simp [Pend.effect, droundEffect]
  case block => simp [Pend.effect, blockEffect, State.generateBlock]
  case next => simp [Pend.effect, nextEffect, State.generateBlock, State.advanceCtr]
  case crypt =>
    by_cases hlen : s.len = 0
    · simp [Pend.effect, cryptEffect_of_empty hlen]
    · obtain ⟨-, -, -, hctr⟩ := cryptEffect_of_len hlen
      exact ⟨fun _ => .inr (.inr ⟨rfl, hlen⟩), fun _ => ⟨rfl, hlen⟩, fun _ => ⟨hctr, .inr ⟨rfl, hlen⟩⟩⟩

/-- Settles O23: reads and presentations change none of the three, a write only `CTR`, a completion what its command says. -/
theorem resultWriters : Obligations.ResultWriters := by
  intro i s t h
  rcases exec_next_cases h with ⟨v, n, rfl⟩ | ⟨a, v, rfl, rfl⟩ | ⟨v, rfl⟩ | ⟨p, -, hi, rfl⟩
  · exact ⟨fun hne => absurd rfl hne, fun hne => absurd rfl hne, fun hne => absurd rfl hne⟩
  · obtain ⟨hks, hdout, -, -⟩ := hostStore_frame (regAt a) v s
    refine ⟨fun hne => absurd hks hne, fun hne => absurd hdout hne, fun hne => .inl ⟨v, ?_⟩⟩
    have hreg : regAt a = .ctr := by_contra fun hr => hne (hostStore_ctr hr v s)
    have ha : a = 28 := BitVec.eq_of_toNat_eq (regAt_eq_ctr.mp hreg)
    rw [ha]
  · obtain ⟨hks, hdout, -, -⟩ := hostStore_frame .ctrl v s
    exact ⟨fun hne => absurd hks hne, fun hne => absurd hdout hne,
      fun hne => absurd (hostStore_ctr (by decide) v s) hne⟩
  · obtain ⟨hks, hdout, hctr⟩ := p.effect_results s
    refine ⟨fun hne => ?_, fun hne => ?_, fun hne => ?_⟩
    · rcases hks hne with hop | hop | ⟨hop, hlen⟩
      · exact .inl (cmdOpOfInstr_block (hop ▸ hi))
      · exact .inr (.inl (cmdOpOfInstr_next (hop ▸ hi)))
      · obtain ⟨x, hx⟩ := cmdOpOfInstr_crypt (hop ▸ hi)
        exact .inr (.inr ⟨x, hx, hlen⟩)
    · obtain ⟨hop, hlen⟩ := hdout hne
      obtain ⟨x, hx⟩ := cmdOpOfInstr_crypt (hop ▸ hi)
      exact ⟨x, hx, hlen⟩
    · obtain ⟨hadd, hop⟩ := hctr hne
      refine .inr ⟨hadd, ?_⟩
      rcases hop with hop | ⟨hop, hlen⟩
      · exact .inl (cmdOpOfInstr_next (hop ▸ hi))
      · obtain ⟨x, hx⟩ := cmdOpOfInstr_crypt (hop ▸ hi)
        exact .inr ⟨x, hx, hlen⟩

/-! ### Command words in an idle core and in reset -/

/-- Settles O11: an idle core holds no command, so the arm presents its word, as the `CTRL` write does (R69). -/
theorem commandArmIsCtrlWrite : Obligations.CommandArmIsCtrlWrite := by
  intro s v hp
  rw [exec_hostWrite, regAt_eq_ctrl.mpr rfl]
  cases hc : cmdOpOf (opField v) with
  | none => exact exec_decodeCmd_of_reserved (cmdOpOf_eq_none.mp hc) s
  | some op => exact exec_decodeCmd_of_idle hp (cmdOpOf_eq_some.mp hc)

/-- While `rst_n` is low no command is pending's to complete: every arm is a write, and the write is ignored (R240). -/
theorem exec_decodeCmd_in_reset {s : State} (hr : s.rstLow = true) (v : Word) : exec (decodeCmd v) s = .next s := by
  have hstore : hostStore .ctrl v s = s := hostStore_in_reset hr .ctrl v
  cases hc : cmdOpOf (opField v) with
  | none => rw [exec_decodeCmd_of_reserved (cmdOpOf_eq_none.mp hc), hstore]
  | some op => rw [exec_decodeCmd_of_command (cmdOpOf_eq_some.mp hc), commandTurn, if_neg (by simp [hr]), hstore]

/-- Settles O55: writes are ignored, presented words too, and every register but `ID` reads a drawn value (R240, R20). -/
theorem resetIgnoresTransactions : Obligations.ResetIgnoresTransactions := by
  intro s a x v hr
  refine ⟨by rw [exec_hostWrite, hostStore_in_reset hr], exec_decodeCmd_in_reset hr v, fun ha => ?_⟩
  have hreg : regAt a ≠ .id := fun h => ha (BitVec.eq_of_toNat_eq (regAt_eq_id.mp h))
  rw [exec_hostRead, if_pos hr, State.readInReset, if_neg hreg]
  rfl

/-- Settles O15: a read's next state differs in the two fields the statement sets back. -/
theorem readsHaveNoSideEffect : Obligations.ReadsHaveNoSideEffect := by
  intro s a x
  obtain ⟨v, n, h⟩ := exec_hostRead_eq a x s
  exact ⟨_, h, rfl⟩

end Sys2Proof.Machine
end

section
/-! PROOFS. Acceptance and refusal of each command on an idle core (R100, R202, R203), and its completion (R103). -/

namespace Sys2Proof.Machine

/-! ### Presentation to an idle core -/

/-- A command's arm on an idle core is `Command` of its word (R100). -/
theorem commandTurn_ready {s : State} (hs : s.ready) (op : CmdOp) (v : Word) (effect : State → State) :
    commandTurn op v effect s = .next (s.command v) := by
  obtain ⟨hr, hp⟩ := hs
  rw [commandTurn_of_not_holds (s.holds_of_none hp op v), hostStore_ctrl_idle hr hp]

/-- A command that passes its checks is accepted by its own arm (R100). -/
theorem commandTurn_accepts {s : State} (hs : s.ready) {op : CmdOp} {v : Word} (ho : opField v = opcodeOf op)
    (hl : op = .crypt → s.len.toNat ≤ 64)
    (hq : op = .qr → distinct4 (qaField v) (qbField v) (qcField v) (qdField v) = true) (effect : State → State) :
    commandTurn op v effect s = .next (s.accept (pendOf op v)) := by
  rw [commandTurn_of_not_holds (s.holds_of_none hs.2 op v), hostStore_ctrl_accepts hs ho hl hq]

theorem distinct4_eq_true {a b c d : BitVec 4} : distinct4 a b c d = true ↔ [a, b, c, d].Nodup := by
  simp [distinct4, and_assoc]

/-- Settles O26: the length check comes right after the opcode's. -/
theorem badLenRefused : Obligations.BadLenRefused := by
  intro s x hs hlen
  have hop : opField (cmdWord 0x6 x) = opcodeOf .crypt := opField_cmdWord _ x
  rw [exec_crypt, commandTurn_ready hs, State.command_of_opcode hop, if_pos ⟨rfl, hlen⟩]

/-- Settles O27: the index check reads the four fields of the word. -/
theorem badQrIndexRefused : Obligations.BadQrIndexRefused := by
  intro s a b c d x hs hdup
  have hd : distinct4 a b c d = false := Bool.eq_false_of_not_eq_true (mt distinct4_eq_true.mp hdup)
  have hop : opField (cmdWord 0x2 (restOf a b c d x)) = opcodeOf .qr := opField_cmdWord _ _
  rw [exec_qr, commandTurn_ready hs, State.command_of_opcode hop, if_neg (by simp), if_pos ⟨rfl, by simp [hd]⟩]

/-- Settles O28: each arm's word has its command's opcode, and only CRYPT and QR have a check to pass. -/
theorem commandsAccepted : Obligations.CommandsAccepted := by
  intro s x a b c d y hs
  have haccept : ∀ (op : CmdOp) (effect : State → State), op ≠ .qr → (op = .crypt → s.len.toNat ≤ 64) →
      ∃ p : Pend, p.op = op ∧
        commandTurn op (cmdWord (opcodeOf op) x) effect s = .next { s with pend := some p, done := false } :=
    fun op effect hq hl =>
      ⟨_, rfl, commandTurn_accepts hs (opField_cmdWord _ _) hl (fun h => absurd h hq) effect⟩
  refine ⟨haccept .nop _ (by decide) (by simp), haccept .load _ (by decide) (by simp), fun hd => ?_,
    haccept .dround _ (by decide) (by simp), haccept .block _ (by decide) (by simp),
    haccept .next _ (by decide) (by simp), fun hl => haccept .crypt _ (by decide) fun _ => hl⟩
  have hop : opField (cmdWord 0x2 (restOf a b c d y)) = opcodeOf .qr := opField_cmdWord _ _
  rw [exec_qr, commandTurn_accepts hs hop (by simp) fun _ => by simpa using distinct4_eq_true.mpr hd]
  simp [State.accept_eq, pendOf]

/-! ### Completion -/

/-- The arm of a pending command other than QR completes it, whatever its ignored bits (R85, R103). -/
theorem commandTurn_completes {s : State} {p : Pend} (hr : s.rstLow = false) (hp : s.pend = some p) {op : CmdOp}
    (hop : p.op = op) (hq : op ≠ .qr) (v : Word) (effect : State → State) :
    commandTurn op v effect s = .next (effect s).finish := by
  subst hop
  exact commandTurn_of_holds hr (s.holds_of_some hp v fun h => absurd h hq)

/-- The 20 rounds are ten iterations of the double round (R145). -/
theorem doubleRounds_eq_iterate (n : Nat) (w : Block) : doubleRounds n w = doubleRound^[n] w := by
  induction n generalizing w with
  | zero => rfl
  | succ n ih => exact ih (doubleRound w)

/-- The block function by its ten double rounds and its feed-forward (R145, R146). -/
theorem blockFn_getElem_iterate (b : Block) (i : Fin 16) : (blockFn b)[i] = (doubleRound^[10] b)[i] + b[i] := by
  rw [blockFn_getElem, rounds20, doubleRounds_eq_iterate]

theorem zeroBlock_getElem (i : Fin 16) : zeroBlock[i] = 0 := by
  fin_cases i <;> rfl

/-- The counter's advance, on the counter's number (R171). -/
theorem ctr_add_one (c : Word) : c + 1 = BitVec.ofNat 32 (c.toNat + 1) := by
  rw [BitVec.ofNat_add, BitVec.ofNat_toNat, BitVec.setWidth_eq]
  rfl

/-! Each effect that generates a block, as one record. -/

theorem State.generateBlock_eq (s : State) :
    s.generateBlock = { s with ks := blockFn s.initState, work := zeroBlock } := by
  rw [State.generateBlock, State.setWork, State.setKs]

theorem nextEffect_eq (s : State) :
    nextEffect s = { s with ks := blockFn s.initState, work := zeroBlock, ctr := s.ctr + 1 } := by
  rw [nextEffect, State.generateBlock_eq, State.advanceCtr, State.setCtr]

theorem cryptEffect_eq {s : State} (h : s.len ≠ 0) :
    cryptEffect s =
      { s with
        ks := blockFn s.initState
        work := zeroBlock
        dout := chunkOut s.len.toNat s.din (blockFn s.initState)
        ctr := s.ctr + 1 } := by
  rw [cryptEffect, if_neg h, State.generateBlock_eq, State.advanceCtr, State.setDout, State.setCtr]

/-- Settles O29: NOP has no effect of its own. -/
theorem nopCompletes : Obligations.NopCompletes := by
  intro s p x hr hp hop
  rw [exec_nop, commandTurn_completes hr hp hop (by decide), nopEffect, State.finish_eq]

/-- Settles O30: the initial state's words are the statement's. -/
theorem loadCompletes : Obligations.LoadCompletes := by
  intro s p x hr hp hop
  rw [exec_load, commandTurn_completes hr hp hop (by decide), loadEffect, State.finish_eq]
  rfl

/-! The two rounds are the quarter rounds on their groups, in the rules' order (R141, R142). -/

theorem quarterRounds_columnGroups (w : Block) : quarterRounds columnGroups w = columnRound w := by
  simp only [quarterRounds, columnGroups, List.foldl, columnRound]

theorem quarterRounds_diagonalGroups (w : Block) : quarterRounds diagonalGroups w = diagonalRound w := by
  simp only [quarterRounds, diagonalGroups, List.foldl, diagonalRound]

/-- Settles O32: the two rounds are the quarter rounds of the two lists of groups, in their order. -/
theorem droundCompletes : Obligations.DroundCompletes := by
  intro s p x hr hp hop
  rw [exec_dround, commandTurn_completes hr hp hop (by decide), droundEffect, State.finish_eq, doubleRound,
    ← quarterRounds_diagonalGroups, ← quarterRounds_columnGroups, State.setWork]

/-- Settles O33: the block is the block function of the initial state. -/
theorem blockCompletes : Obligations.BlockCompletes := by
  intro s p x hr hp hop
  refine ⟨blockFn s.initState, zeroBlock, ?_, blockFn_getElem_iterate s.initState, zeroBlock_getElem⟩
  rw [exec_block, commandTurn_completes hr hp hop (by decide), blockEffect, State.generateBlock_eq, State.finish_eq]

/-- Settles O34: as BLOCK, and the counter's advance is the statement's. -/
theorem nextCompletes : Obligations.NextCompletes := by
  intro s p x hr hp hop
  refine ⟨blockFn s.initState, zeroBlock, ?_, blockFn_getElem_iterate s.initState, zeroBlock_getElem⟩
  rw [exec_next, commandTurn_completes hr hp hop (by decide), nextEffect_eq, State.finish_eq, ctr_add_one]

/-- Settles O35: as NEXT, and each byte of the chunk's output is the masked xor. -/
theorem cryptCompletes : Obligations.CryptCompletes := by
  intro s p x hr hp hop hlen
  refine ⟨blockFn s.initState, zeroBlock, chunkOut s.len.toNat s.din (blockFn s.initState), ?_,
    blockFn_getElem_iterate s.initState, zeroBlock_getElem, wbyte_chunkOut _ _ _⟩
  rw [exec_crypt, commandTurn_completes hr hp hop (by decide), cryptEffect_eq hlen, State.finish_eq, ctr_add_one]

/-- Settles O36: with LEN 0 CRYPT has no effect of its own. -/
theorem emptyCryptCompletes : Obligations.EmptyCryptCompletes := by
  intro s p x hr hp hop hlen
  rw [exec_crypt, commandTurn_completes hr hp hop (by decide), cryptEffect_of_empty hlen, State.finish_eq]

/-- Settles O31: the pending QR holds the arm's word, and its effect is the mixer on the four slots. -/
theorem qrCompletes : Obligations.QrCompletes := by
  intro s a b c d x hr hp hd
  have hholds : s.holds .qr (cmdWord 0x2 (restOf a b c d x)) = true :=
    s.holds_of_some hp _ fun _ => by simp [pendOf]
  refine ⟨qrAt s.work (windowIndex a) (windowIndex b) (windowIndex c) (windowIndex d), commandTurn_of_holds hr hholds,
    ?_, fun q hq => ?_⟩
  · simp only [List.nodup_cons, List.mem_cons, List.not_mem_nil, not_or, or_false] at hd
    obtain ⟨⟨hab, hac, had⟩, ⟨hbc, hbd⟩, hcd, -⟩ := hd
    have hne : ∀ {e f : BitVec 4}, e ≠ f → windowIndex e ≠ windowIndex f := mt windowIndex_injective.mp
    exact qrAt_getElem_slots (hne hab) (hne hac) (hne had) (hne hbc) (hne hbd) (hne hcd)
  · simp only [List.mem_cons, List.not_mem_nil, not_or, or_false] at hq
    obtain ⟨ha, hb, hc, hd⟩ := hq
    have hne : ∀ {e : BitVec 4}, q ≠ e → windowIndex q ≠ windowIndex e := mt windowIndex_injective.mp
    exact qrAt_getElem_other (hne ha) (hne hb) (hne hc) (hne hd)

end Sys2Proof.Machine
end

section
/-! PROOFS. The mixer in place and pure (R123), the order of a round's quarter rounds (R144), and the lanes of a chunk (R174). -/

namespace Sys2Proof.Machine

/-! ### Four slots of a window -/

/-- The window with `r`'s four words in the slots `i`, `j`, `k`, `l`. -/
def putSlots (w : Block) (i j k l : Fin 16) (r : Word × Word × Word × Word) : Block :=
  (((w.set i r.1).set j r.2.1).set k r.2.2.1).set l r.2.2.2

theorem qrAt_eq_putSlots (w : Block) (i j k l : Fin 16) :
    qrAt w i j k l = putSlots w i j k l (qround w[i] w[j] w[k] w[l]) := rfl

section

/-! On distinct slots the four words are read and written independently. -/

variable {w : Block} {i j k l : Fin 16} (hd : [i, j, k, l].Nodup) (a b c d x : Word)
include hd

theorem putSlots_getElem_slots :
    (putSlots w i j k l (a, b, c, d))[i] = a ∧ (putSlots w i j k l (a, b, c, d))[j] = b ∧
      (putSlots w i j k l (a, b, c, d))[k] = c ∧ (putSlots w i j k l (a, b, c, d))[l] = d := by
  simp only [List.nodup_cons, List.mem_cons, List.not_mem_nil, not_or, or_false, Fin.ext_iff] at hd
  obtain ⟨⟨hij, hik, hil⟩, ⟨hjk, hjl⟩, hkl, -⟩ := hd
  simp [putSlots, Ne.symm hij, Ne.symm hik, Ne.symm hil, Ne.symm hjk, Ne.symm hjl, Ne.symm hkl]

theorem putSlots_set_slots :
    (putSlots w i j k l (a, b, c, d)).set i x = putSlots w i j k l (x, b, c, d) ∧
      (putSlots w i j k l (a, b, c, d)).set j x = putSlots w i j k l (a, x, c, d) ∧
      (putSlots w i j k l (a, b, c, d)).set k x = putSlots w i j k l (a, b, x, d) ∧
      (putSlots w i j k l (a, b, c, d)).set l x = putSlots w i j k l (a, b, c, x) := by
  simp only [List.nodup_cons, List.mem_cons, List.not_mem_nil, not_or, or_false, Fin.ext_iff] at hd
  obtain ⟨⟨hij, hik, hil⟩, ⟨hjk, hjl⟩, hkl, -⟩ := hd
  refine ⟨Vector.ext fun m hm => ?_, Vector.ext fun m hm => ?_, Vector.ext fun m hm => ?_, Vector.ext fun m hm => ?_⟩
  all_goals simp only [putSlots, Vector.getElem_set]; grind

end

/-- A window holds its own words in any four slots. -/
theorem putSlots_self (w : Block) (i j k l : Fin 16) : putSlots w i j k l (w[i], w[j], w[k], w[l]) = w := by
  simp [putSlots]

/-- On distinct slots every assignment in place reads and writes one component of the four, so the twelve are the mixer. -/
theorem inPlaceQuarter_putSlots {w : Block} {i j k l : Fin 16} (hd : [i, j, k, l].Nodup) (a b c d : Word) :
    inPlaceQuarter (putSlots w i j k l (a, b, c, d)) i j k l = putSlots w i j k l (qround a b c d) := by
  have hget := fun a b c d => putSlots_getElem_slots (w := w) hd a b c d
  have hset := fun a b c d x => putSlots_set_slots (w := w) hd a b c d x
  simp only [forall_and, Fin.getElem_fin] at hget hset
  obtain ⟨geti, getj, getk, getl⟩ := hget
  obtain ⟨seti, setj, setk, setl⟩ := hset
  simp only [inPlaceQuarter, Fin.getElem_fin, geti, getj, getk, getl, seti, setj, setk, setl, qround,
    rotl32_eq_rotateLeft]

/-- A window on which a quarter round on one slot four times tells the two forms apart. -/
def aliasedWindow : Block := #v[1, 0, 0, 0, 0, 0, 0, 0, 0, 0, 0, 0, 0, 0, 0, 0]

/-- Settles O38: the two forms agree on distinct slots; `aliasedWindow` is the difference on aliased ones. -/
theorem inPlaceAndPureAgree : Obligations.InPlaceAndPureAgree := by
  refine ⟨fun w i j k l hd => ?_, aliasedWindow, 0, 0, 0, 0, by decide⟩
  have h := inPlaceQuarter_putSlots (w := w) hd w[i] w[j] w[k] w[l]
  rw [putSlots_self] at h
  rw [h, qrAt_eq_putSlots]

/-! ### The order of a round's quarter rounds (R144) -/

/-- A quarter round's result in a slot depends on its four slots and on that slot alone. -/
theorem qrAt_getElem_congr {u w : Block} {i j k l m : Fin 16} (hi : u[i] = w[i]) (hj : u[j] = w[j]) (hk : u[k] = w[k])
    (hl : u[l] = w[l]) (hm : u[m] = w[m]) : (qrAt u i j k l)[m] = (qrAt w i j k l)[m] := by
  simp only [qrAt, hi, hj, hk, hl, Fin.getElem_fin, Vector.getElem_set] at hm ⊢
  rw [hm]

/-- The four indices of one quarter round's call. -/
abbrev Group := Fin 16 × Fin 16 × Fin 16 × Fin 16

/-- The four slots of a group. -/
def slots (g : Group) : List (Fin 16) := [g.1, g.2.1, g.2.2.1, g.2.2.2]

/-- The quarter round on a group. -/
def qrOn (w : Block) (g : Group) : Block := qrAt w g.1 g.2.1 g.2.2.1 g.2.2.2

theorem qrOn_getElem_other {w : Block} {g : Group} {m : Fin 16} (hm : m ∉ slots g) :
    (qrOn w g)[m] = w[m] := by
  simp only [slots, List.mem_cons, List.not_mem_nil, not_or, or_false] at hm
  obtain ⟨h1, h2, h3, h4⟩ := hm
  exact qrAt_getElem_other h1 h2 h3 h4

theorem qrOn_getElem_congr {u w : Block} {g : Group} {m : Fin 16}
    (h : ∀ q ∈ slots g, u[q] = w[q]) (hm : u[m] = w[m]) : (qrOn u g)[m] = (qrOn w g)[m] := by
  simp only [slots, List.forall_mem_cons] at h
  obtain ⟨h1, h2, h3, h4, -⟩ := h
  exact qrAt_getElem_congr h1 h2 h3 h4 hm

/-- Outside the second group's slots, a quarter round on a disjoint group does not see that the second came first. -/
theorem qrOn_qrOn_getElem {g h : Group} (hgh : (slots g).Disjoint (slots h)) (w : Block)
    {m : Fin 16} (hm : m ∉ slots h) : (qrOn (qrOn w g) h)[m] = (qrOn (qrOn w h) g)[m] := by
  rw [qrOn_getElem_other hm]
  exact (qrOn_getElem_congr (fun q hq => qrOn_getElem_other fun hq' => hgh hq hq') (qrOn_getElem_other hm)).symm

theorem qrOn_comm {g h : Group} (hgh : (slots g).Disjoint (slots h)) (w : Block) :
    qrOn (qrOn w g) h = qrOn (qrOn w h) g := by
  refine Block.ext_getElem fun m => ?_
  by_cases hm : m ∈ slots h
  · exact (qrOn_qrOn_getElem hgh.symm w fun hg => hgh hg hm).symm
  · exact qrOn_qrOn_getElem hgh w hm

/-- Quarter rounds on pairwise disjoint groups give one result in every order. -/
theorem quarterRounds_perm {gs hs : List (Group)} (hp : gs.Perm hs)
    (hd : ∀ g ∈ hs, ∀ h ∈ hs, g = h ∨ ∀ q ∈ slots g, q ∉ slots h) (w : Block) :
    quarterRounds gs w = quarterRounds hs w := by
  refine (hp.symm.foldl_eq' (f := qrOn) (fun g hg h hh w => ?_) w).symm
  rcases hd g hg h hh with rfl | hgh
  · rfl
  · exact qrOn_comm (fun q => hgh q) w

/-- Settles O39: the groups of each round are pairwise disjoint. -/
theorem roundOrderDoesNotMatter : Obligations.RoundOrderDoesNotMatter :=
  ⟨fun gs w hp => (quarterRounds_perm hp (by decide) w).trans (quarterRounds_columnGroups w),
    fun gs w hp => (quarterRounds_perm hp (by decide) w).trans (quarterRounds_diagonalGroups w)⟩

/-! ### Lanes (R174) -/

/-- Settles O43: an output byte is a function of its lane of the two windows and of whether it is below the length. -/
theorem byteLanesAreIndependent : Obligations.ByteLanesAreIndependent := by
  intro n n' din din' ks ks' k hlen hdin hks
  simp only [wbyte_chunkOut, chunkByte, hlen, hdin, hks]

end Sys2Proof.Machine
end

section
/-! PROOFS. A command of an idle core from its presentation to its completion (R100, R103), alone and in sequences. -/

namespace Sys2Proof.Machine

/-! ### One command -/

/-- The core after one command: its effect, nothing pending, DONE, and nothing left on the schedule. -/
def State.after (s : State) (p : Pend) : State := (p.effect (s.setSchedule [])).finish

@[simp] theorem State.accept_initState (s : State) (p : Pend) : (s.accept p).initState = s.initState := rfl

/-- No completion sees that its command was accepted: it reads neither PEND nor DONE, and `finish` writes both. -/
theorem Pend.effect_accept_finish (p q : Pend) (s : State) :
    (p.effect (s.accept q)).finish = (p.effect s).finish := by
  obtain ⟨op, a, b, c, d⟩ := p
  cases op
  case nop => rfl
  case load => rfl
  case qr => rfl
  case dround => rfl
  case block => simp only [Pend.effect, blockEffect, State.generateBlock_eq, State.accept_initState]; rfl
  case next => simp only [Pend.effect, nextEffect_eq, State.accept_initState]; rfl
  case crypt =>
    by_cases hlen : s.len = 0
    · simp only [Pend.effect, cryptEffect_of_empty hlen, cryptEffect_of_empty (s := s.accept q) hlen]; rfl
    · simp only [Pend.effect, cryptEffect_eq hlen, cryptEffect_eq (s := s.accept q) hlen, State.accept_initState]; rfl

/-- A completed command leaves the core idle. -/
theorem State.after_ready {s : State} (hs : s.ready) (p : Pend) : (s.after p).ready := by
  obtain ⟨-, -, -, -, -, -, -, -, -, hlow, -, -, -⟩ := p.effect_frame (s.setSchedule [])
  exact ⟨hlow.trans hs.1, rfl⟩

/-- A command word written to an idle core, and the core's turn. -/
theorem runEvents_word {s : State} (hs : s.ready) {op : CmdOp} {v : Word} (ho : opField v = opcodeOf op)
    (hl : op = .crypt → s.len.toNat ≤ 64)
    (hq : op = .qr → distinct4 (qaField v) (qbField v) (qcField v) (qdField v) = true) (rest : List Event) :
    runEvents (wr ctrlAddr v :: .core :: rest) s = runEvents rest (s.after (pendOf op v)) := by
  rw [runEvents_command hs ho hl hq, Pend.effect_accept_finish, State.after]

/-- `cmd` of a command without a check (R89). -/
theorem runEvents_cmd {s : State} (hs : s.ready) {op : CmdOp} (hc : op ≠ .crypt) (hq : op ≠ .qr) (rest : List Event) :
    runEvents (cmd op :: .core :: rest) s = runEvents rest (s.after (pendOf op (cmdWord (opcodeOf op) 0))) :=
  runEvents_word hs (opField_cmdWord _ _) (fun h => absurd h hc) (fun h => absurd h hq) rest

/-! ### Commands that write `STATE` alone -/

/-- The core after a command whose effect is to put `w` in `STATE`. -/
def State.afterWork (s : State) (w : Block) : State := ((s.setSchedule []).setWork w).finish

@[simp] theorem State.afterWork_work (s : State) (w : Block) : (s.afterWork w).work = w := rfl

@[simp] theorem State.afterWork_afterWork (s : State) (v w : Block) : (s.afterWork v).afterWork w = s.afterWork w := rfl

theorem State.afterWork_ready {s : State} (hs : s.ready) (w : Block) : (s.afterWork w).ready := ⟨hs.1, rfl⟩

/-- `cmd QR` with distinct indices (R89, R125). -/
theorem runEvents_cmdQr {s : State} (hs : s.ready) {a b c d : BitVec 4} (hd : distinct4 a b c d = true)
    (rest : List Event) :
    runEvents (cmdQr a b c d :: .core :: rest) s =
      runEvents rest (s.afterWork (qrAt s.work (windowIndex a) (windowIndex b) (windowIndex c) (windowIndex d))) := by
  have hop : opField (cmdWord 0x2 (restOf a b c d 0)) = opcodeOf .qr := opField_cmdWord _ _
  rw [cmdQr, runEvents_word hs hop (by simp) (by simpa using hd)]
  simp only [State.after, Pend.effect, pendOf, qaField_cmdWord, qbField_cmdWord, qcField_cmdWord, qdField_cmdWord]
  rfl

theorem runEvents_cmd_load {s : State} (hs : s.ready) (rest : List Event) :
    runEvents (cmd .load :: .core :: rest) s = runEvents rest (s.afterWork s.initState) :=
  runEvents_cmd hs (by decide) (by decide) rest

theorem runEvents_cmd_dround {s : State} (hs : s.ready) (rest : List Event) :
    runEvents (cmd .dround :: .core :: rest) s = runEvents rest (s.afterWork (doubleRound s.work)) :=
  runEvents_cmd hs (by decide) (by decide) rest

/-- QR commands on the groups of a list, each completed before the next. -/
def qrEvents (gs : List (BitVec 4 × BitVec 4 × BitVec 4 × BitVec 4)) : List Event :=
  (gs.map fun g => [cmdQr g.1 g.2.1 g.2.2.1 g.2.2.2, .core]).flatten

/-- The group of slots that four index fields name. -/
def groupOf (g : BitVec 4 × BitVec 4 × BitVec 4 × BitVec 4) : Group :=
  (windowIndex g.1, windowIndex g.2.1, windowIndex g.2.2.1, windowIndex g.2.2.2)

/-- A sequence of QR commands is the quarter rounds on its groups, in its order. -/
theorem runEvents_qrEvents {s : State} (hs : s.ready) {gs : List (BitVec 4 × BitVec 4 × BitVec 4 × BitVec 4)}
    (hne : gs ≠ []) (hd : ∀ g ∈ gs, distinct4 g.1 g.2.1 g.2.2.1 g.2.2.2 = true) :
    runEvents (qrEvents gs) s = s.afterWork (quarterRounds (gs.map groupOf) s.work) := by
  induction gs generalizing s with
  | nil => exact absurd rfl hne
  | cons g gs ih =>
    obtain ⟨hg, hgs⟩ := List.forall_mem_cons.mp hd
    have hfirst := runEvents_cmdQr hs hg (qrEvents gs)
    cases gs with
    | nil => exact hfirst
    | cons g' gs' => exact hfirst.trans (ih (s.afterWork_ready hs _) (List.cons_ne_nil g' gs') hgs)

/-- The index fields of the eight QR commands of a double round (R141, R142). -/
def doubleRoundFields : List (BitVec 4 × BitVec 4 × BitVec 4 × BitVec 4) :=
  [(0, 4, 8, 12), (1, 5, 9, 13), (2, 6, 10, 14), (3, 7, 11, 15),
    (0, 5, 10, 15), (1, 6, 11, 12), (2, 7, 8, 13), (3, 4, 9, 14)]

theorem quarterRounds_append (gs hs : List Group) (w : Block) :
    quarterRounds (gs ++ hs) w = quarterRounds hs (quarterRounds gs w) := List.foldl_append

/-- Settles O40: the groups of the eight commands are those of the column round and then of the diagonal round. -/
theorem eightQrsAreOneDround : Obligations.EightQrsAreOneDround := by
  intro s hs
  have hgroups : doubleRoundFields.map groupOf = columnGroups ++ diagonalGroups := rfl
  have hqrs := runEvents_qrEvents hs (gs := doubleRoundFields) (by decide) (List.all_eq_true.mp rfl)
  rw [hgroups, quarterRounds_append, quarterRounds_columnGroups, quarterRounds_diagonalGroups] at hqrs
  exact hqrs.trans (runEvents_cmd_dround hs []).symm

/-! ### The rounds of BLOCK, one by one -/

/-- n DROUND commands are n double rounds (R143, R151). -/
theorem runEvents_drounds {s : State} (hs : s.ready) (n : Nat) (w : Block) :
    runEvents (List.replicate n [cmd .dround, .core]).flatten (s.afterWork w) = s.afterWork (doubleRound^[n] w) := by
  induction n generalizing w with
  | zero => rfl
  | succ n ih =>
    have hfirst := runEvents_cmd_dround (s.afterWork_ready hs w) (List.replicate n [cmd .dround, .core]).flatten
    rw [State.afterWork_work, State.afterWork_afterWork] at hfirst
    exact hfirst.trans (ih (doubleRound w))

theorem runEvents_cmd_block_ks {s : State} (hs : s.ready) :
    (runEvents [cmd .block, .core] s).ks = blockFn s.initState := by
  rw [runEvents_cmd hs (by decide) (by decide)]
  simp only [runEvents, State.after, Pend.effect, pendOf, blockEffect, State.generateBlock_eq,
    State.setSchedule_initState]
  rfl

/-- Settles O41: both sides are ten double rounds of the initial state, and the feed-forward. -/
theorem tenDroundsAndFeedForwardAreBlock : Obligations.TenDroundsAndFeedForwardAreBlock := by
  intro s hs i
  have hload := runEvents_cmd_load hs (List.replicate 10 [cmd .dround, .core]).flatten
  rw [runEvents_drounds hs] at hload
  rw [runEvents_cmd_block_ks hs, blockFn_getElem_iterate, List.cons_append, List.cons_append, List.nil_append, hload,
    State.afterWork_work]

/-! ### NEXT commands in a row -/

/-- The initial state is a function of the key, the counter and the nonce (R140). -/
theorem State.initState_congr {s u : State} (hk : s.key = u.key) (hc : s.ctr = u.ctr) (hn : s.nonce = u.nonce) :
    s.initState = u.initState := by
  simp only [State.initState, hk, hc, hn]

/-- The core after one NEXT command. -/
def State.afterNext (s : State) : State := (nextEffect (s.setSchedule [])).finish

theorem State.afterNext_eq (s : State) :
    s.afterNext =
      { s with
        ks := blockFn s.initState
        work := zeroBlock
        ctr := s.ctr + 1
        pend := none
        done := true
        schedule := [] } := by
  rw [State.afterNext, nextEffect_eq, State.finish_eq, State.setSchedule_initState]
  rfl

theorem runEvents_nexts {s : State} (hs : s.ready) (n : Nat) :
    runEvents (List.replicate n [cmd .next, .core]).flatten s = State.afterNext^[n] s := by
  induction n generalizing s with
  | zero => rfl
  | succ n ih =>
    have hfirst := runEvents_cmd (op := .next) hs (by decide) (by decide) (List.replicate n [cmd .next, .core]).flatten
    exact hfirst.trans (ih (s.after_ready hs _))

/-- n NEXT commands keep the parameters and the core idle, and move the counter by n (R170, R171). -/
theorem afterNext_iterate {s : State} (hs : s.ready) (n : Nat) :
    (State.afterNext^[n] s).ready ∧ (State.afterNext^[n] s).key = s.key ∧ (State.afterNext^[n] s).nonce = s.nonce ∧
      (State.afterNext^[n] s).ctr = BitVec.ofNat 32 (s.ctr.toNat + n) := by
  induction n with
  | zero => simp [hs]
  | succ n ih =>
    obtain ⟨⟨hlow, -⟩, hkey, hnonce, hctr⟩ := ih
    rw [Function.iterate_succ_apply', State.afterNext_eq]
    refine ⟨⟨hlow, rfl⟩, hkey, hnonce, ?_⟩
    dsimp only
    rw [hctr, ← Nat.add_assoc, BitVec.ofNat_add _ 1]
    rfl

/-- Settles O42: the last NEXT computes its block from the counter n commands have reached. -/
theorem repeatedNextAdvances : Obligations.RepeatedNextAdvances := by
  intro s n hs
  obtain ⟨-, hkey, hnonce, hctr⟩ := afterNext_iterate hs n
  obtain ⟨hready, -, -, hctr'⟩ := afterNext_iterate hs (n + 1)
  have hinit : (State.afterNext^[n] s).initState =
      State.initState { s with ctr := BitVec.ofNat 32 (s.ctr.toNat + n) } := State.initState_congr hkey hctr hnonce
  dsimp only
  rw [runEvents_nexts hs]
  refine ⟨hctr', ?_, hready⟩
  rw [Function.iterate_succ_apply', State.afterNext_eq, ← hinit]

/-! ### CRYPT of one chunk -/

/-- The core after a CRYPT with LEN > 0, from presentation to completion (R172). -/
def State.crypted (s : State) : State :=
  { s with
    ks := blockFn s.initState
    work := zeroBlock
    dout := chunkOut s.len.toNat s.din (blockFn s.initState)
    ctr := s.ctr + 1
    pend := none
    done := true }

/-- What a CRYPT produces depends on five registers alone (R177). -/
theorem State.crypted_congr {s u : State} (hk : s.key = u.key) (hn : s.nonce = u.nonce) (hc : s.ctr = u.ctr)
    (hl : s.len = u.len) (hd : s.din = u.din) :
    s.crypted.dout = u.crypted.dout ∧ s.crypted.ks = u.crypted.ks ∧ s.crypted.ctr = u.crypted.ctr ∧
      s.crypted.work = u.crypted.work := by
  simp only [State.crypted, State.initState_congr hk hc hn, hc, hl, hd, and_self]

/-- The completion of an accepted CRYPT with LEN > 0. -/
theorem cryptEffect_accept_finish {s : State} (hlen : s.len ≠ 0) (p : Pend) :
    (cryptEffect (s.accept p)).finish = s.crypted := by
  rw [cryptEffect_eq (s := s.accept p) hlen, State.accept_initState, State.finish_eq, State.crypted]
  rfl

/-- CRYPT's arm accepts the command in an idle core, and then completes it (log 7). -/
theorem exec_crypt_twice {s : State} (hs : s.ready) (hpos : 0 < s.len.toNat) (hlen : s.len.toNat ≤ 64) (x : BitVec 28) :
    ∃ t, exec (.crypt x) s = .next t ∧ exec (.crypt x) t = .next s.crypted := by
  have hne : s.len ≠ 0 := fun h => by simp [h] at hpos
  have haccept := commandTurn_accepts (op := .crypt) hs (opField_cmdWord _ x) (fun _ => hlen) (by simp) cryptEffect
  have hcomplete := commandTurn_completes (s := s.accept (pendOf .crypt (cmdWord 0x6 x))) (op := .crypt) hs.1 rfl rfl
    (by decide) (cmdWord 0x6 x) cryptEffect
  exact ⟨_, haccept, cryptEffect_accept_finish hne _ ▸ hcomplete⟩

/-- Settles O44: both cores go through acceptance to `crypted`, which the five registers determine. -/
theorem cryptDependsOnParametersAlone : Obligations.CryptDependsOnParametersAlone := by
  intro s u x hs hu hk hn hc hl hd hpos hlen
  obtain ⟨s1, hs1, hs2⟩ := exec_crypt_twice hs hpos hlen x
  obtain ⟨u1, hu1, hu2⟩ := exec_crypt_twice hu (hl ▸ hpos) (hl ▸ hlen) x
  exact ⟨s1, s.crypted, u1, u.crypted, hs1, hs2, hu1, hu2, State.crypted_congr hk hn hc hl hd⟩

/-- Below the length, masking twice with one keystream gives the input back (R176). -/
theorem chunkByte_chunkOut {len : Nat} {k : Fin 64} (hk : k.val < len) (din ks : Block) :
    chunkByte len (chunkOut len din ks) ks k = wbyte din k := by
  simp [chunkByte, hk]

/-- Settles O45: the second CRYPT starts from the first one's counter, so it has the same keystream. -/
theorem cryptTwiceRestoresChunk : Obligations.CryptTwiceRestoresChunk := by
  intro s x hs hpos hlen
  obtain ⟨s1, hs1, hs2⟩ := exec_crypt_twice hs hpos hlen x
  have hback : State.ready { s.crypted with ctr := s.ctr, din := s.crypted.dout } := ⟨hs.1, rfl⟩
  obtain ⟨s3, hs3, hs4⟩ := exec_crypt_twice hback hpos hlen x
  refine ⟨s1, s.crypted, s3, _, hs1, hs2, hs3, hs4, fun k hk => ?_⟩
  have hinit : State.initState { s.crypted with ctr := s.ctr, din := s.crypted.dout } = s.initState :=
    State.initState_congr rfl rfl rfl
  simp only [State.crypted] at hinit ⊢
  rw [hinit, wbyte_chunkOut, chunkByte_chunkOut hk]

end Sys2Proof.Machine
end

section
/-! PROOFS. One step by the schedule's next entry (R14), and the bridge's and the reset line's entries. -/

namespace Sys2Proof.Machine

/-! ### What a transaction runs -/

/-- A `CTRL` write to a core that is not busy presents its data (R21, R69). -/
theorem txInstr_ctrl_idle {s : State} (hp : s.pend = none) (v : Word) :
    txInstr (busWord true ctrlAddr v) s = decodeCmd v := by
  simp [txInstr, hp]

/-- Any other transaction is the one its bits say (R80, R211). -/
theorem txInstr_of_not_command {s : State} {tx : BitVec 40}
    (h : ∀ v, decodeBus tx = .hostWrite ctrlAddr v → s.pend ≠ none) : txInstr tx s = decodeBus tx := by
  unfold txInstr
  split
  · next a v hd =>
    rw [if_neg fun ⟨ha, hp⟩ => h v (ha ▸ hd) hp, hd]
  · rfl

theorem txInstr_write {a : BitVec 7} (ha : a ≠ ctrlAddr) (v : Word) (s : State) :
    txInstr (busWord true a v) s = .hostWrite a v := by
  rw [txInstr_of_not_command fun w h => ?_, decodeBus_write]
  rw [decodeBus_write] at h
  exact absurd (Instr.hostWrite.inj h).1 ha

theorem txInstr_read (a : BitVec 7) (x : Word) (s : State) : txInstr (busWord false a x) s = .hostRead a x := by
  rw [txInstr_of_not_command fun w h => ?_, decodeBus_read]
  rw [decodeBus_read] at h
  cases h

theorem txInstr_congr {s u : State} (h : s.pend = u.pend) (tx : BitVec 40) : txInstr tx s = txInstr tx u := by
  simp only [txInstr, h]

/-- Presented as a transaction or by its own arm, a command word does the same (R69). -/
theorem exec_txInstr {s u : State} (h : u.pend = s.pend) (tx : BitVec 40) :
    exec (txInstr tx s) u = exec (decodeBus tx) u := by
  unfold txInstr
  split
  · next a v hd =>
    split_ifs with hctrl
    · obtain ⟨rfl, hp⟩ := hctrl
      exact (commandArmIsCtrlWrite u v (h.trans hp)).trans (by rw [hd]; rfl)
    · rw [hd]
  · rfl

/-! ### One step, by the next entry -/

section

variable {s : State} {rest : List Event}

theorem step_of_bus {tx : BitVec 40} (hs : s.schedule = .bus tx :: rest) :
    step s = exec (txInstr tx s) (s.setSchedule rest) := by
  simp [step, fetch, hs]

theorem step_of_rst {low : Bool} (hs : s.schedule = .rst low :: rest) :
    step s = .next ((s.setSchedule rest).driveReset low) := by
  simp [step, fetch, hs]

/-- A bridge's access, by its size, alignment and offset (R12, R50, R62; log 9). -/
theorem step_of_bridge {we : Bool} {off size : Nat} {v : Word} (hs : s.schedule = .bridge we off size v :: rest) :
    step s =
      if size ≠ 4 ∨ off % 4 ≠ 0 then .refused .notAWordAccess
      else if 0x200 ≤ off then .fault .offsetOutsideSpace
      else exec (txInstr (busWord we (BitVec.ofNat 7 (off / 4)) v) s) (s.setSchedule rest) := by
  have hf : fetch s = bridgeTurn we off size v (s.setSchedule rest) := by simp [fetch, hs]
  rw [step, hf, bridgeTurn, txInstr_congr (u := s) rfl]
  split_ifs <;> rfl

/-- With the core's turn next, or nothing on the schedule, the step is the core's turn (R14, R105). -/
theorem fetch_of_core_turn (hs : s.schedule = [] ∨ ∃ rest, s.schedule = .core :: rest) :
    fetch s = coreTurn (s.setSchedule s.schedule.tail) := by
  rcases hs with hs | ⟨rest, hs⟩
  · have hself : s.setSchedule s.schedule.tail = s := by rw [hs]; cases s; cases hs; rfl
    rw [hself, fetch, hs]
  · simp [fetch, hs]

end

/-- Settles O6: the transaction is not one the core reads as a command word. -/
theorem stepRunsTransaction : Obligations.StepRunsTransaction := by
  intro s tx rest hs h
  rw [step_of_bus hs, txInstr_of_not_command h]
  rfl

/-- Settles O7. -/
theorem stepRunsCommandWord : Obligations.StepRunsCommandWord := by
  intro s v rest hs hp
  rw [step_of_bus hs]
  exact congrArg (exec · _) (txInstr_ctrl_idle hp v)

/-- Settles O8: the turn of a core with a pending command runs that command's instruction. -/
theorem stepRunsPendingCommand : Obligations.StepRunsPendingCommand := by
  intro s p hp hs
  have hturn : coreTurn (s.setSchedule s.schedule.tail) = .run p.instr (s.setSchedule s.schedule.tail) := by
    simp [coreTurn, hp]
  rw [step, fetch_of_core_turn hs, hturn]
  rfl

/-- Settles O9: the turn of a core with nothing pending moves nothing. -/
theorem idleCoreWaits : Obligations.IdleCoreWaits := by
  intro s hp hs
  have hturn : coreTurn (s.setSchedule s.schedule.tail) = .move (s.setSchedule s.schedule.tail) := by
    simp [coreTurn, hp]
  rw [step, fetch_of_core_turn hs, hturn]
  rfl

/-- A number placed in a word of its own width or fewer bits loses only the bits above it. -/
theorem ofNat_mod_two_pow (n w : Nat) : BitVec.ofNat n (w % 2 ^ n) = BitVec.ofNat n w :=
  BitVec.eq_of_toNat_eq (by simp)

/-- Settles O10: 32 bits are presented as a `CTRL` write of a core made idle, 40 bits as the transaction they are. -/
theorem placedWordRunsNext : Obligations.PlacedWordRunsNext := by
  refine ⟨fun s w => ?_, fun s w => ?_⟩
  · have hframe : tableFrame 32 w = some (.cmd (BitVec.ofNat 32 w)) := by
      rw [tableFrame, if_pos (by decide), ofNat_mod_two_pow]
    rw [State.withFetchWord, hframe]
    exact stepRunsCommandWord (s.present _) _ s.schedule rfl rfl
  · have hframe : tableFrame 40 w = some (.bus (BitVec.ofNat 40 w)) := by
      rw [tableFrame, if_neg (by decide), if_pos (by decide), ofNat_mod_two_pow]
    rw [State.withFetchWord, hframe]
    exact (step_of_bus (s := s.present _) rfl).trans (exec_txInstr (s := s.present _) (u := s) rfl _)

/-- Settles O54: the reset step is the reset state with the model's own fields kept. -/
theorem resetStep : Obligations.ResetStep := fun _ _ => ⟨fun hs => step_of_rst hs, fun hs => step_of_rst hs⟩

/-- Settles O60: the three outcomes of the bridge's checks, the transaction among them. -/
theorem bridgeAccess : Obligations.BridgeAccess := by
  intro s we off size v rest hs
  rw [step_of_bridge hs]
  refine ⟨fun hsize hoff hlt => ?_, fun hsize hoff hge => ?_, fun hbad => ?_⟩
  · rw [if_neg (by omega), if_neg (by omega), step_of_bus rfl]
    rfl
  · rw [if_neg (by omega), if_pos hge]
  · rw [if_pos (by omega)]

/-! ### A pending command ends (R105) -/

/-- The core's turn completes the pending command (R103). -/
theorem step_completes {s : State} {p : Pend} (hr : s.rstLow = false) (hp : s.pend = some p)
    (hs : s.schedule = [] ∨ ∃ rest, s.schedule = .core :: rest) :
    step s = .next (p.effect (s.setSchedule s.schedule.tail)).finish := by
  rw [stepRunsPendingCommand s p hp hs]
  exact exec_pend_instr hp hr

theorem run_succ {s t : State} (h : step s = .next t) (k : Nat) :
    (Host.Core.run core (k + 1) s : Host.Outcome State Fault Refusal) = Host.Core.run core k t := by
  have hstep : core.step s = .next t := h
  simp only [Host.Core.run, hstep]

/-- Nothing is pending within `n` steps. -/
def State.idleWithin (s : State) (n : Nat) : Prop :=
  ∃ k t, k ≤ n ∧ (Host.Core.run core k s : Host.Outcome State Fault Refusal) = .next t ∧ t.pend = none

theorem State.idleWithin_of_idle {s : State} (hp : s.pend = none) (n : Nat) : s.idleWithin n :=
  ⟨0, s, Nat.zero_le n, rfl, hp⟩

theorem State.idleWithin_of_step {s t : State} {n : Nat} (h : step s = .next t) (ht : t.idleWithin n) :
    s.idleWithin (n + 1) := by
  obtain ⟨k, u, hk, hrun, hu⟩ := ht
  exact ⟨k + 1, u, Nat.succ_le_succ hk, (run_succ h k).trans hrun, hu⟩

/-- Settles O59, by induction on the schedule: the core's turn and a reset end the command, every other entry is used up. -/
theorem pendingCommandEnds : Obligations.PendingCommandEnds := by
  intro s hr hport
  change s.idleWithin (s.schedule.length + 1)
  generalize hs : s.schedule = l
  induction l generalizing s with
  | nil =>
    cases hp : s.pend with
    | none => exact s.idleWithin_of_idle hp _
    | some p => exact s.idleWithin_of_step (step_completes hr hp (.inl hs)) (State.idleWithin_of_idle rfl _)
  | cons e rest ih =>
    have hrest : ∀ t : State, t.schedule = rest → t.portOnly := fun t ht e' he' =>
      hport e' (hs ▸ List.mem_cons_of_mem e (ht ▸ he'))
    rcases hport e (hs ▸ List.mem_cons_self) with ⟨tx, rfl⟩ | rfl | ⟨low, rfl⟩
    · obtain ⟨t, ht⟩ := execAlwaysAnswersNext (txInstr tx s) (s.setSchedule rest)
      obtain ⟨hlow, hsched, -⟩ := onlyHostWritesParameters _ _ _ ht
      exact s.idleWithin_of_step ((step_of_bus hs).trans ht) (ih t (hlow.trans hr) (hrest t hsched) hsched)
    · cases hp : s.pend with
      | none => exact s.idleWithin_of_idle hp _
      | some p =>
        exact s.idleWithin_of_step (step_completes hr hp (.inr ⟨rest, hs⟩)) (State.idleWithin_of_idle rfl _)
    · cases low with
      | true => exact s.idleWithin_of_step (step_of_rst hs) (State.idleWithin_of_idle rfl _)
      | false => exact s.idleWithin_of_step (step_of_rst hs) (ih _ rfl (hrest _ rfl) rfl)

end Sys2Proof.Machine
end

section
/-! PROOFS. What every step keeps: errors, DONE, and the operands of a pending command (R24 to R26, R102, R204, R250). -/

namespace Sys2Proof.Machine

/-! ### Errors (R25, R26) -/

/-- A later error is not recorded: the first code stays (R205). -/
theorem State.raise_of_err {s : State} (he : s.err = true) (c : ErrCode) :
    (s.raise c).err = true ∧ (s.raise c).errcode = s.errcode :=
  ⟨s.raise_err c, by rw [State.raise_errcode, if_pos he]⟩

/-- A recorded error outlives every write but that of a STATUS word with bit 2 (R206). -/
theorem hostStore_keeps_error {s : State} (he : s.err = true) {r : Reg} {v : Word}
    (hv : r = .status → v.getLsbD 2 = false) :
    (hostStore r v s).err = true ∧ (hostStore r v s).errcode = s.errcode := by
  rcases hostStore_outcomes r v s with h | ⟨c, -, h⟩ | ⟨-, p, h⟩ | ⟨hstatus, h⟩ | ⟨hctrl, hstatus, h⟩
  · rw [h]; exact ⟨he, rfl⟩
  · rw [h]; exact State.raise_of_err he c
  · rw [h]; exact ⟨he, rfl⟩
  · rw [h, State.statusWrite_eq]
    simp only [hv hstatus, he, Bool.false_eq_true, if_false, and_self]
  · obtain ⟨-, herr, hcode⟩ := s.store_flags v hctrl hstatus
    rw [h]; exact ⟨herr.trans he, hcode⟩

/-- Settles O49: of the things a step can do, a STATUS write and the reset step alone clear ERR. -/
theorem errorIsSticky : Obligations.ErrorIsSticky := by
  intro s t hstep he
  have he' : (s.setSchedule s.schedule.tail).err = true := he
  rcases step_cases hstep with ⟨v, n, rfl⟩ | ⟨a, v, hf, rfl⟩ | ⟨-, v, rfl⟩ | ⟨p, -, -, rfl⟩ | ⟨-, rfl⟩ |
    ⟨low, rest, hs, rfl⟩
  · exact .inl ⟨he, rfl⟩
  · by_cases hclear : regAt a = .status ∧ v.getLsbD 2 = true
    · obtain ⟨ha, hv⟩ := hclear
      have ha2 : a = 2 := BitVec.eq_of_toNat_eq (regAt_eq_status.mp ha)
      exact .inr (.inr ⟨v, _, ha2 ▸ hf, hv⟩)
    · exact .inl (hostStore_keeps_error he' fun ha => Bool.eq_false_of_not_eq_true fun hv => hclear ⟨ha, hv⟩)
  · exact .inl (hostStore_keeps_error he' fun h => by cases h)
  · obtain ⟨-, herr, hcode, -⟩ := p.effect_frame (s.setSchedule s.schedule.tail)
    exact .inl ⟨herr.trans he, hcode⟩
  · exact .inl ⟨he, rfl⟩
  · cases low with
    | true => exact .inr (.inl ⟨rest, hs⟩)
    | false => exact .inl ⟨he, rfl⟩

/-- An error other than BUSY_WRITE does not bring code 4. -/
theorem State.code4_of_raise {s : State} {c : ErrCode} (hc : c ≠ .busyWrite) (h4 : (s.raise c).errcode = 4) :
    s.err = true ∧ s.errcode = 4 := by
  rw [State.raise_errcode] at h4
  split_ifs at h4 with he
  · exact ⟨he, h4⟩
  · exact absurd h4 (by revert hc; cases c <;> decide)

/-- Only the refused write of a busy core brings code 4 (R204). -/
theorem hostStore_code4 {s : State} {r : Reg} {v : Word} (hopen : ¬(s.busy = true ∧ r.frozen = true))
    (he : (hostStore r v s).err = true) (h4 : (hostStore r v s).errcode = 4) : s.err = true ∧ s.errcode = 4 := by
  rcases hostStore_outcomes r v s with h | ⟨c, hc, h⟩ | ⟨-, p, h⟩ | ⟨-, h⟩ | ⟨hctrl, hstatus, h⟩ <;> rw [h] at he h4
  · exact ⟨he, h4⟩
  · exact State.code4_of_raise (mt hc hopen) h4
  · exact ⟨he, h4⟩
  · rw [State.statusWrite_eq] at he h4
    cases hv : v.getLsbD 2 with
    | true => simp only [hv, if_true] at he; cases he
    | false => simp only [hv, Bool.false_eq_true, if_false] at he h4; exact ⟨he, h4⟩
  · obtain ⟨-, herr, hcode⟩ := s.store_flags v hctrl hstatus
    exact ⟨herr ▸ he, hcode ▸ h4⟩

/-- Settles O52: the step runs no refused write, and nothing else raises BUSY_WRITE. -/
theorem carefulHostNeverBusyWrite : Obligations.CarefulHostNeverBusyWrite := by
  intro s t hstep hcareful he h4
  rcases step_cases hstep with ⟨v, n, rfl⟩ | ⟨a, v, hf, rfl⟩ | ⟨hp, v, rfl⟩ | ⟨p, -, -, rfl⟩ | ⟨-, rfl⟩ |
    ⟨low, rest, -, rfl⟩
  · exact ⟨he, h4⟩
  · exact hostStore_code4 (s := s.setSchedule s.schedule.tail) (fun ⟨hb, hfrozen⟩ => hcareful ⟨hb, a, v, hf, hfrozen⟩) he h4
  · have hidle : s.busy = false := State.busy_eq_false.mpr hp
    exact hostStore_code4 (s := s.setSchedule s.schedule.tail) (fun ⟨hb, _⟩ => by simp [hidle] at hb) he h4
  · obtain ⟨-, herr, hcode, -⟩ := p.effect_frame (s.setSchedule s.schedule.tail)
    exact ⟨herr ▸ he, hcode ▸ h4⟩
  · exact ⟨he, h4⟩
  · cases low with
    | true => cases he
    | false => exact ⟨he, h4⟩

/-! ### DONE (R24) -/

/-- No write sets DONE. -/
theorem hostStore_done {s : State} {r : Reg} {v : Word} (h : (hostStore r v s).done = true) : s.done = true := by
  rcases hostStore_outcomes r v s with hs | ⟨c, -, hs⟩ | ⟨-, p, hs⟩ | ⟨-, hs⟩ | ⟨hctrl, hstatus, hs⟩ <;> rw [hs] at h
  · exact h
  · rwa [State.raise_eq] at h
  · cases h
  · rw [State.statusWrite_eq_masked] at h
    exact (Bool.and_eq_true _ _ ▸ h).1
  · exact (s.store_flags v hctrl hstatus).1 ▸ h

/-- Settles O50: of the things a step can do, the completion alone sets DONE. -/
theorem doneIsSetByCompletion : Obligations.DoneIsSetByCompletion := by
  intro s t hstep hbefore hafter
  have hno : s.done ≠ true := by simp [hbefore]
  rcases step_cases hstep with ⟨v, n, rfl⟩ | ⟨a, v, -, rfl⟩ | ⟨-, v, rfl⟩ | ⟨p, -, hp, rfl⟩ | ⟨-, rfl⟩ |
    ⟨low, rest, -, rfl⟩
  · exact absurd hafter hno
  · exact absurd (hostStore_done hafter) hno
  · exact absurd (hostStore_done hafter) hno
  · exact ⟨by simp [hp], rfl⟩
  · exact absurd hafter hno
  · cases low with
    | true => cases hafter
    | false => exact absurd hafter hno

/-! ### The operands of a pending command (R102) -/

/-- The pending command, its operands, and the results. -/
def State.operands (s : State) :=
  (s.pend, s.key, s.ctr, s.nonce, s.len, s.work, s.din, s.ks, s.dout)

/-- No write to a busy core reaches them: the frozen registers are refused, and the others hold none of them. -/
theorem hostStore_busy_operands {s : State} (hb : s.busy = true) (r : Reg) (v : Word) :
    (hostStore r v s).operands = s.operands := by
  rcases hostStore_cases s r v with ⟨-, h⟩ | ⟨-, -, -, h⟩ | ⟨-, hopen, h⟩
  · rw [h]
  · rw [h, State.raise_eq]; rfl
  · rw [h]
    have hfrozen : r.frozen = false := hopen.resolve_left (by simp [hb])
    by_cases hstatus : r = .status
    · subst hstatus; rw [State.store, State.statusWrite_eq]; rfl
    · by_cases hirqen : r = .irqen
      · subst hirqen; rfl
      · rw [State.store_ignored s hfrozen hstatus hirqen]

/-- Settles O51: a step from busy to busy is a read, a write, a turn without effect, or `rst_n` driven high. -/
theorem operandsFrozenWhileBusy : Obligations.OperandsFrozenWhileBusy := by
  intro s t hstep hbefore hafter
  have hb : (s.setSchedule s.schedule.tail).busy = true := State.busy_eq_true.mpr hbefore
  have hoperands : t.operands = s.operands := by
    rcases step_cases hstep with ⟨v, n, rfl⟩ | ⟨a, v, -, rfl⟩ | ⟨hp, v, rfl⟩ | ⟨p, -, -, rfl⟩ | ⟨-, rfl⟩ |
      ⟨low, rest, -, rfl⟩
    · rfl
    · exact hostStore_busy_operands hb (regAt a) v
    · exact absurd hp hbefore
    · exact absurd rfl hafter
    · rfl
    · cases low with
      | true => exact absurd rfl hafter
      | false => rfl
  simpa only [State.operands, Prod.mk.injEq] using hoperands

end Sys2Proof.Machine
end

section
/-! PROOFS. A write at the edge of a completion (R212), the interrupt line (R38, R210), and the reset values (R240). -/

namespace Sys2Proof.Machine

/-- One write of a schedule to a register other than `CTRL`, in any mode of the core. -/
theorem step_wr {a : BitVec 7} (ha : a ≠ ctrlAddr) (s : State) (v : Word) :
    step (s.setSchedule [wr a v]) = exec (.hostWrite a v) (s.setSchedule []) := by
  rw [step_of_bus rfl, txInstr_write ha]
  rfl

/-- Settles O53: before the completion the busy core refuses the write; after it the idle core stores it. -/
theorem writeAndCompletionEitherOrder : Obligations.WriteAndCompletionEitherOrder := by
  intro s p v hr hp he
  refine ⟨?_, ?_⟩
  · have hrefused : step (s.setSchedule [wr 20 v]) = .next ((s.setSchedule []).withError 4) :=
      (step_wr (by decide) s v).trans (exec_hostWrite_frozen (s := s.setSchedule []) hr (by simp [hp]) rfl v)
    rw [runEvents_cons_next _ hrefused, runEvents_core (s := (s.setSchedule []).withError 4) hp hr]
    obtain ⟨-, herr, hcode, -, -, hkey, -⟩ := p.effect_frame (((s.setSchedule []).withError 4).setSchedule [])
    exact ⟨hkey, hcode.trans (if_neg (by simp [he])), herr⟩
  · obtain ⟨-, herr, -, -, -, hkey, -, -, -, hlow, -⟩ := p.effect_frame (s.setSchedule [])
    have hready : (p.effect (s.setSchedule [])).finish.ready := ⟨hlow.trans hr, rfl⟩
    rw [runEvents_core hp hr, runEvents_wr hready (by decide)]
    exact ⟨congrArg (·.set 0 v) hkey, herr.trans he⟩

/-- Settles O48: the line is two ANDs of single bits; masked, both are 0, and STATUS does not show IRQEN. -/
theorem irqFollowsStatusAndIrqen : Obligations.IrqFollowsStatusAndIrqen := by
  have hbits : ∀ (code : BitVec 4) (err done busy : Bool) (irqen : BitVec 2),
      ((done && irqen.getLsbD 0) || (err && irqen.getLsbD 1)) =
        ((((0 : BitVec 24) ++ code ++ (0 : BitVec 1) ++ BitVec.ofBool err ++ BitVec.ofBool done ++ BitVec.ofBool busy)
          >>> 1) &&& irqen.setWidth 32 != 0) := by decide
  refine ⟨fun s => hbits s.errcode s.err s.done s.busy s.irqen, fun s hr => ⟨s.setIrqen 0, ?_, ?_, rfl⟩⟩
  · exact exec_hostWrite_open hr (.inr rfl) 0
  · simp [State.irq]

/-- Settles O56: the reset state, field by field. -/
theorem resetValues : Obligations.ResetValues := by
  unfold Obligations.ResetValues
  decide

end Sys2Proof.Machine
end

section
/-! PROOFS. Whole messages (R175, R176): the host procedure, chunk by chunk. -/

namespace Sys2Proof.Machine

/-! ### A core between the host's events -/

/-- Idle, out of reset, and with nothing left on the schedule: the core between two of the procedure's commands. -/
structure State.Quiet (s : State) : Prop where
  ready : s.ready
  schedule : s.schedule = []

theorem State.setSchedule_of_eq {s : State} {l : List Event} (h : s.schedule = l) : s.setSchedule l = s := by
  subst h
  rfl

/-- `wr` to any register but `CTRL` stores at once (R55). -/
theorem runEvents_wr_quiet {s : State} (hs : s.Quiet) {a : BitVec 7} (ha : a ≠ ctrlAddr) (v : Word) (rest : List Event) :
    runEvents (wr a v :: rest) s = runEvents rest (s.store (regAt a) v) := by
  rw [runEvents_wr hs.ready ha, State.setSchedule_of_eq hs.schedule]

theorem regAt_eq_ctrl_iff {a : BitVec 7} : regAt a = .ctrl ↔ a = ctrlAddr :=
  regAt_eq_ctrl.trans ⟨fun h => BitVec.eq_of_toNat_eq h, fun h => h ▸ rfl⟩

theorem State.Quiet.store {s : State} (hs : s.Quiet) {r : Reg} (hr : r ≠ .ctrl) (v : Word) : (s.store r v).Quiet := by
  obtain ⟨-, -, -, -, -, -, hsched⟩ := s.store_frame v hr
  exact ⟨State.store_ready hs.ready hr v, hsched.trans hs.schedule⟩

/-- A run of writes to registers other than `CTRL` is their stores, one after the other. -/
theorem runEvents_writes {α : Type} (l : List α) (addr : α → BitVec 7) (val : α → Word) (ha : ∀ i, addr i ≠ ctrlAddr)
    {s : State} (hs : s.Quiet) (rest : List Event) :
    let t := l.foldl (fun t i => t.store (regAt (addr i)) (val i)) s
    runEvents (l.map (fun i => wr (addr i) (val i)) ++ rest) s = runEvents rest t ∧ t.Quiet := by
  induction l generalizing s with
  | nil => exact ⟨rfl, hs⟩
  | cons i l ih =>
    obtain ⟨hrun, hquiet⟩ := ih (hs.store (mt regAt_eq_ctrl_iff.mp (ha i)) (val i))
    exact ⟨(runEvents_wr_quiet hs (ha i) (val i) _).trans hrun, hquiet⟩

/-- Writing every index of a window leaves the values written. -/
theorem foldl_set_finRange {n : Nat} (f : Fin n → Word) (b : Vector Word n) :
    (List.finRange n).foldl (fun b i => b.set i (f i)) b = Vector.ofFn f := by
  have hget : ∀ (l : List (Fin n)) (b : Vector Word n) (j : Fin n),
      (l.foldl (fun b i => b.set i (f i)) b)[j] = if j ∈ l then f j else b[j] := by
    intro l
    induction l with
    | nil => intro b j; simp
    | cons i l ih =>
      intro b j
      rw [List.foldl_cons, ih]
      by_cases hj : j = i
      · subst hj; simp
      · have hij : i.val ≠ j.val := fun h => hj (Fin.ext h.symm)
        simp [hj, hij]
  refine Vector.ext fun j hj => ?_
  simpa using hget (List.finRange n) b ⟨j, hj⟩

/-! The three windows the procedure writes whole (R89, R175). -/

theorem foldl_store_key (f : Fin 8 → Word) (s : State) :
    (List.finRange 8).foldl (fun t i => t.store (.key i) (f i)) s = s.setKey (Vector.ofFn f) := by
  rw [← foldl_set_finRange f s.key]
  exact List.foldl_hom s.setKey fun _ _ => rfl

theorem foldl_store_nonce (f : Fin 3 → Word) (s : State) :
    (List.finRange 3).foldl (fun t i => t.store (.nonce i) (f i)) s = s.setNonce (Vector.ofFn f) := by
  rw [← foldl_set_finRange f s.nonce]
  exact List.foldl_hom s.setNonce fun _ _ => rfl

theorem foldl_store_din (f : Fin 16 → Word) (s : State) :
    (List.finRange 16).foldl (fun t i => t.store (.din i) (f i)) s = s.setDin (Vector.ofFn f) := by
  rw [← foldl_set_finRange f s.din]
  exact List.foldl_hom s.setDin fun _ _ => rfl

theorem runEvents_setkey {s : State} (hs : s.Quiet) (k : Vector Word 8) (rest : List Event) :
    runEvents (setkey k ++ rest) s = runEvents rest (s.setKey k) ∧ (s.setKey k).Quiet := by
  have h := runEvents_writes (List.finRange 8) (fun i => BitVec.ofNat 7 (20 + i.val)) (fun i => k[i]) (by decide) hs rest
  simp only [regAt_key, foldl_store_key, Fin.getElem_fin, Vector.ofFn_getElem] at h
  exact h

theorem runEvents_setnonce {s : State} (hs : s.Quiet) (n : Vector Word 3) (rest : List Event) :
    runEvents (setnonce n ++ rest) s = runEvents rest (s.setNonce n) ∧ (s.setNonce n).Quiet := by
  have h := runEvents_writes (List.finRange 3) (fun i => BitVec.ofNat 7 (29 + i.val)) (fun i => n[i]) (by decide) hs rest
  simp only [regAt_nonce, foldl_store_nonce, Fin.getElem_fin, Vector.ofFn_getElem] at h
  exact h

/-- The procedure's preamble (R175): the key, the nonce and the counter. -/
theorem runEvents_preamble {s : State} (hs : s.ready) (k : Vector Word 8) (n : Vector Word 3) (c : Word) :
    let t := runEvents (setkey k ++ (setnonce n ++ setctr c)) s
    t.Quiet ∧ t.key = k ∧ t.nonce = n ∧ t.ctr = c := by
  have hquiet : (s.setSchedule []).Quiet := ⟨hs, rfl⟩
  have hfirst : runEvents (setkey k ++ (setnonce n ++ setctr c)) s =
      runEvents (setkey k ++ (setnonce n ++ setctr c)) (s.setSchedule []) :=
    (runEvents_wr hs (by decide) _ _).trans (runEvents_wr hquiet.ready (by decide) _ _).symm
  obtain ⟨hkey, hquiet⟩ := runEvents_setkey hquiet k (setnonce n ++ setctr c)
  obtain ⟨hnonce, hquiet⟩ := runEvents_setnonce hquiet n (setctr c)
  have hctr := runEvents_wr_quiet (a := 28) hquiet (by decide) c []
  dsimp only
  rw [hfirst, hkey, hnonce, setctr, hctr]
  exact ⟨hquiet.store (by decide) c, rfl, rfl, rfl⟩

/-! ### One chunk -/

/-- Reads while the schedule holds nothing else leave all but the model's two fields (R58). -/
theorem runEvents_reads {s : State} (hs : s.schedule = []) (a : BitVec 7) (n : Nat) (rest : List Event) :
    ∃ v m, runEvents (List.replicate n (rd a) ++ rest) s = runEvents rest (s.setRead v m) := by
  induction n generalizing s with
  | zero => exact ⟨s.busRdata, 0, rfl⟩
  | succ n ih =>
    obtain ⟨v, m, hread⟩ := exec_hostRead_eq a 0 (s.setSchedule [])
    have hstep : step (s.setSchedule [rd a]) = .next (s.setRead v m) := by
      rw [step_of_bus rfl, txInstr_read]
      exact hread.trans (by rw [State.setSchedule_of_eq hs])
    obtain ⟨v', m', hrest⟩ := ih (s := s.setRead v m) hs
    have hmerge : (s.setRead v m).setRead v' m' = s.setRead v' (m + m') := by simp [State.setRead, Nat.add_assoc]
    exact ⟨v', m + m', (runEvents_cons_next _ hstep).trans (hmerge ▸ hrest)⟩

/-- A CRYPT presented to a quiet core whose LEN fits is accepted (R100). -/
theorem runEvents_cmd_crypt {s : State} (hs : s.Quiet) (hlen : s.len.toNat ≤ 64) (rest : List Event) :
    runEvents (cmd .crypt :: rest) s = runEvents rest (s.accept (pendOf .crypt (cmdWord 0x6 0))) := by
  apply runEvents_cons_next
  have hop : opField (cmdWord 0x6 0) = opcodeOf .crypt := opField_cmdWord _ 0
  have hself : (s.setSchedule [cmd .crypt]).setSchedule [] = s := State.setSchedule_of_eq hs.schedule
  rw [step_of_bus rfl, hself, ← hostStore_ctrl_accepts hs.ready hop (fun _ => hlen) (by simp)]
  rw [← exec_decodeCmd_of_idle hs.ready.2 hop]
  exact congrArg (exec · s) (txInstr_ctrl_idle (s := s.setSchedule [cmd .crypt]) hs.ready.2 _)

/-- `cmd CRYPT` and `wait` (R89): the accepted command completes after the polls, which only read. -/
theorem runEvents_crypt_wait {s : State} (hs : s.Quiet) (hpos : s.len ≠ 0) (hlen : s.len.toNat ≤ 64) (polls : Nat) :
    ∃ v m v' m', runEvents (cmd .crypt :: wait polls) s = (s.setRead v m).crypted.setRead v' m' := by
  let p : Pend := pendOf .crypt (cmdWord 0x6 0)
  obtain ⟨v, m, hpolls⟩ := runEvents_reads (s := s.accept p) hs.schedule 2 polls [.core, rd 2]
  have hcore := runEvents_core (s := (s.accept p).setRead v m) (p := p) rfl hs.ready.1 [rd 2]
  have hcrypted : (p.effect (((s.accept p).setRead v m).setSchedule [])).finish = (s.setRead v m).crypted := by
    have hself : ((s.accept p).setRead v m).setSchedule [] = (s.setRead v m).accept p :=
      State.setSchedule_of_eq hs.schedule
    rw [hself]
    exact cryptEffect_accept_finish (s := s.setRead v m) hpos p
  obtain ⟨v', m', hlast⟩ := runEvents_reads (s := (s.setRead v m).crypted) hs.schedule 2 1 []
  refine ⟨v, m, v', m', ?_⟩
  rw [runEvents_cmd_crypt hs hlen, wait, hpolls, hcore, hcrypted]
  exact hlast

/-- The window of DIN that holds a chunk, the filler past its end (R60, R175). -/
def chunkWindow (filler : Nat → Byte) (c : List Byte) : Block := Vector.ofFn fun i : Fin 16 => chunkWord filler c i

theorem wbyte_chunkWindow (filler : Nat → Byte) (c : List Byte) (k : Fin 64) :
    wbyte (chunkWindow filler c) k = chunkByteAt filler c k :=
  wbyte_ofFn_wordOf (fun k => chunkByteAt filler c k) k

/-- The 16 writes of DIN (R175). -/
theorem runEvents_din {s : State} (hs : s.Quiet) (filler : Nat → Byte) (c : List Byte) (rest : List Event) :
    runEvents ((List.range 16).map (fun i => wr (BitVec.ofNat 7 (64 + i)) (chunkWord filler c i)) ++ rest) s =
      runEvents rest (s.setDin (chunkWindow filler c)) ∧ (s.setDin (chunkWindow filler c)).Quiet := by
  have h := runEvents_writes (List.finRange 16) (fun i => BitVec.ofNat 7 (64 + i.val)) (fun i => chunkWord filler c i)
    (by decide) hs rest
  simp only [regAt_din, foldl_store_din] at h
  exact h

/-- One chunk of the loop (R175): the output window, the advanced counter, and a core ready for the next chunk. -/
theorem runEvents_chunk {s : State} (hs : s.Quiet) (polls : Nat) (filler : Nat → Byte) {c : List Byte} (hc : c ≠ [])
    (hlen : c.length ≤ 64) :
    let t := runEvents (chunkEvents polls filler c) s
    t.Quiet ∧ t.key = s.key ∧ t.nonce = s.nonce ∧ t.ctr = s.ctr + 1 ∧
      t.dout = chunkOut c.length (chunkWindow filler c) (blockFn s.initState) := by
  obtain ⟨hdin, hquiet⟩ := runEvents_din hs filler c ([wr 4 (BitVec.ofNat 32 c.length), cmd .crypt] ++ wait polls)
  have hwr := runEvents_wr_quiet (a := 4) hquiet (by decide) (BitVec.ofNat 32 c.length) (cmd .crypt :: wait polls)
  have hquiet' := hquiet.store (r := .len) (by decide) (BitVec.ofNat 32 c.length)
  have hmod : c.length % 128 = c.length := Nat.mod_eq_of_lt (by omega)
  have hstored : ((BitVec.ofNat 32 c.length).setWidth 7).toNat = c.length := by simp [hmod]
  have hpos : (BitVec.ofNat 32 c.length).setWidth 7 ≠ 0 := fun h => by
    rw [h] at hstored
    exact hc (List.length_eq_zero_iff.mp hstored.symm)
  obtain ⟨v, m, v', m', hcrypt⟩ := runEvents_crypt_wait hquiet' hpos (hstored.trans_le hlen) polls
  have hrun := hdin.trans (hwr.trans hcrypt)
  dsimp only
  rw [chunkEvents, hrun]
  refine ⟨⟨⟨?_, rfl⟩, ?_⟩, ?_, ?_, ?_, ?_⟩
  · simp [State.crypted, State.store, hs.ready.1]
  · simp [State.crypted, State.store, hs.schedule]
  · simp [State.crypted, State.store]
  · simp [State.crypted, State.store]
  · simp [State.crypted, State.store]
  · simp [State.crypted, State.store, hmod]

/-- The bytes read back are the chunk's, each with its keystream byte (R174, R175). -/
theorem outBytes_chunkOut (filler : Nat → Byte) {c : List Byte} (hlen : c.length ≤ 64) (ks : Block) :
    outBytes c.length (chunkOut c.length (chunkWindow filler c) ks) =
      c.mapIdx fun i b => b ^^^ wbyte ks ⟨i % 64, Nat.mod_lt _ (by decide)⟩ := by
  refine List.ext_getElem (by simp [outBytes]) fun i hi hi' => ?_
  have hic : i < c.length := by simpa using hi'
  have hmod : i % 64 = i := Nat.mod_eq_of_lt (by omega)
  simp [outBytes, show i < 64 by omega, chunkByte, hic, wbyte_chunkWindow, chunkByteAt, hmod]

/-! ### The whole message -/

/-- R175's output: byte i of the message with byte i mod 64 of the block of counter + i div 64. -/
def xorKeystream (key : Vector Word 8) (nonce : Vector Word 3) (counter : Word) (m : List Byte) : List Byte :=
  m.mapIdx fun i b =>
    b ^^^ keystreamByte key nonce (counter + BitVec.ofNat 32 (i / 64)) ⟨i % 64, Nat.mod_lt _ (by decide)⟩

/-- The keystream of a core is that of its own parameters. -/
theorem keystreamByte_of_state (s : State) (k : Fin 64) :
    keystreamByte s.key s.nonce s.ctr k = wbyte (blockFn s.initState) k := by
  rw [keystreamByte]
  exact congrArg (fun b => wbyte (blockFn b) k) (State.initState_congr rfl rfl rfl)

/-- A message of one chunk uses one block. -/
theorem xorKeystream_chunk (key : Vector Word 8) (nonce : Vector Word 3) (counter : Word) {c : List Byte}
    (hlen : c.length ≤ 64) :
    xorKeystream key nonce counter c =
      c.mapIdx fun i b => b ^^^ keystreamByte key nonce counter ⟨i % 64, Nat.mod_lt _ (by decide)⟩ := by
  refine List.ext_getElem (by simp [xorKeystream]) fun i hi hi' => ?_
  have hic : i < c.length := by simpa using hi'
  have hdiv : i / 64 = 0 := Nat.div_eq_of_lt (by omega)
  simp [xorKeystream, hdiv]

/-- After a whole chunk the rest of the message uses the next counters. -/
theorem xorKeystream_append (key : Vector Word 8) (nonce : Vector Word 3) (counter : Word) {c : List Byte}
    (hlen : c.length = 64) (m : List Byte) :
    xorKeystream key nonce counter (c ++ m) =
      xorKeystream key nonce counter c ++ xorKeystream key nonce (counter + 1) m := by
  have hctr : ∀ i : Nat, counter + BitVec.ofNat 32 ((i + 64) / 64) = counter + 1 + BitVec.ofNat 32 (i / 64) := fun i => by
    rw [Nat.add_div_right i (by decide), Nat.add_comm (i / 64) 1, BitVec.ofNat_add, BitVec.add_assoc]
    rfl
  simp only [xorKeystream, List.mapIdx_append, hlen, hctr, Nat.add_mod_right]

/-- A message is its first chunk's output and then the output of what is left. -/
theorem xorKeystream_take_drop (key : Vector Word 8) (nonce : Vector Word 3) (counter : Word) (m : List Byte) :
    xorKeystream key nonce counter m =
      xorKeystream key nonce counter (m.take 64) ++ xorKeystream key nonce (counter + 1) (m.drop 64) := by
  by_cases hlen : m.length ≤ 64
  · rw [List.take_of_length_le hlen, List.drop_of_length_le hlen]
    simp [xorKeystream]
  · rw [← xorKeystream_append key nonce counter (by simp; omega) (m.drop 64), List.take_append_drop]

/-- The loop, by induction on its fuel, which a message's own length is enough of. -/
theorem encryptChunks_eq (polls : Nat) (filler : Nat → Byte) (fuel : Nat) (m : List Byte) (hfuel : m.length ≤ fuel)
    {s : State} (hs : s.Quiet) :
    let r := encryptChunks polls filler fuel m s
    r.1 = xorKeystream s.key s.nonce s.ctr m ∧ r.2.ctr = s.ctr + BitVec.ofNat 32 ((m.length + 63) / 64) := by
  induction fuel generalizing m s with
  | zero =>
    obtain rfl : m = [] := List.length_eq_zero_iff.mp (Nat.le_zero.mp hfuel)
    simp [encryptChunks, xorKeystream]
  | succ fuel ih =>
    by_cases hm : m = []
    · simp [encryptChunks, xorKeystream, hm]
    have hpos : 0 < m.length := List.length_pos_iff.mpr hm
    have hc : m.take 64 ≠ [] := by simp [hm]
    have hlen : (m.take 64).length ≤ 64 := List.length_take_le 64 m
    obtain ⟨hquiet, hkey, hnonce, hctr, hdout⟩ := runEvents_chunk hs polls filler hc hlen
    obtain ⟨hout, hend⟩ := ih (m.drop 64) (by rw [List.length_drop]; omega) hquiet
    rw [hkey, hnonce, hctr] at hout
    rw [hctr] at hend
    dsimp only
    rw [encryptChunks, if_neg hm]
    refine ⟨?_, ?_⟩
    · dsimp only
      rw [hout, hdout, outBytes_chunkOut filler hlen, xorKeystream_take_drop s.key s.nonce s.ctr m,
        xorKeystream_chunk s.key s.nonce s.ctr hlen]
      simp only [keystreamByte_of_state]
    · have hcount : (m.length + 63) / 64 = 1 + ((m.drop 64).length + 63) / 64 := by
        rw [List.length_drop]; omega
      rw [hcount, BitVec.ofNat_add, ← BitVec.add_assoc]
      exact hend

/-- Settles O46: the preamble leaves the parameters and a quiet core, from which the loop starts. -/
theorem encryptIsXorWithKeystream : Obligations.EncryptIsXorWithKeystream := by
  intro polls filler key nonce counter m s hs
  obtain ⟨hquiet, hkey, hnonce, hctr⟩ := runEvents_preamble hs key nonce counter
  obtain ⟨hout, hend⟩ := encryptChunks_eq polls filler m.length m le_rfl hquiet
  rw [hkey, hnonce, hctr] at hout
  rw [hctr] at hend
  exact ⟨hout, hend⟩

/-- The output of the host procedure (R175). -/
theorem encrypt_output (polls : Nat) (filler : Nat → Byte) (key : Vector Word 8) (nonce : Vector Word 3) (counter : Word)
    (m : List Byte) {s : State} (hs : s.ready) :
    (encrypt polls filler key nonce counter m s).1 = xorKeystream key nonce counter m :=
  (encryptIsXorWithKeystream polls filler key nonce counter m s hs).1

/-- The keystream cancels itself (R176). -/
theorem xorKeystream_xorKeystream (key : Vector Word 8) (nonce : Vector Word 3) (counter : Word) (m : List Byte) :
    xorKeystream key nonce counter (xorKeystream key nonce counter m) = m := by
  refine List.ext_getElem (by simp [xorKeystream]) fun i hi hi' => ?_
  simp [xorKeystream]

/-- Settles O47: both runs put out the xor with one keystream. -/
theorem encryptTwiceRestoresMessage : Obligations.EncryptTwiceRestoresMessage := by
  intro polls polls' filler filler' key nonce counter m s u hs hu
  rw [encrypt_output polls filler key nonce counter _ hu, encrypt_output polls' filler' key nonce counter m hs,
    xorKeystream_xorKeystream]

end Sys2Proof.Machine
end
